-- ==== Sys2Proof/Word.lean ====
section
/-! DEFINITION. The word types of the S-DES CORE: each is a bit vector whose most significant bit is position 1 of the
bit sequence it holds (00_scope.md R5, R6). -/

namespace Sys2Proof

/-- A command word `cmd[19:0]` (30_encoding.md R32). -/
abbrev CmdWord := BitVec 20

/-- A response word `rsp[19:0]` (30_encoding.md R38). -/
abbrev RspWord := BitVec 20

/-- A 16-bit word: a command's `arg`, a response's `data`, a word of the read space (20_memory.md R22). -/
abbrev DataWord := BitVec 16

/-- A 10-bit master key (00_scope.md R5). -/
abbrev Key := BitVec 10

/-- An 8-bit plaintext or ciphertext block (00_scope.md R5). -/
abbrev Block := BitVec 8

/-- An 8-bit round subkey (00_scope.md R5). -/
abbrev Subkey := BitVec 8

/-- A 4-bit half of a block (00_scope.md R5). -/
abbrev Half := BitVec 4

/-- A 5-bit half of a key (00_scope.md R5). -/
abbrev KeyHalf := BitVec 5

/-- An 8-bit word address of the read space (20_memory.md R22). -/
abbrev Addr := BitVec 8

/-- The candidate bitmap: bit `k` is the key of value `k` (10_state.md R13). -/
abbrev CandMap := BitVec 1024

/-- A candidate count, 0 to 1024 (10_state.md R14). -/
abbrev Count := BitVec 11

/-- `val(s)` of 00_scope.md R6: the unsigned value of a sequence. -/
abbrev val {n : Nat} (s : BitVec n) : Nat := s.toNat

/-- `seq_n(v)` of 00_scope.md R6: the n-bit sequence of value `v`, `v < 2^n`. DESIGN CHOICE (log 17): the spec gives no
such sequence for `v ≥ 2^n`; here it is that of `v mod 2^n`. -/
abbrev seq (n v : Nat) : BitVec n := BitVec.ofNat n v

end Sys2Proof
end

