-- ==== Sys2Proof/Syntax.lean ====
section
/-! DEFINITION. The six commands of the S-DES CORE, one constructor per row of spec/opcode_table.json, each with every
field of its format (30_encoding.md R33, R35). The reserved bits of a format are a field too: the check that they are
zero comes after the command is selected (R35) and is part of the command's meaning (R34). -/

namespace Sys2Proof

/-- A command of a legal `op` (30_encoding.md R35). -/
inductive Instr where
  /-- LDKEY, format K: load key (41_key_schedule.md R56). `rsv` is `arg[15:10]`, `key` is `arg[9:0]`. -/
  | ldkey (rsv : BitVec 6) (key : Key)
  /-- ENC, format B: encrypt one block (43_cipher_engine.md R71). `rsv` is `arg[15:8]`, `block` is `arg[7:0]`. -/
  | enc (rsv : BitVec 8) (block : Block)
  /-- DEC, format B: decrypt one block (43_cipher_engine.md R72). `rsv` is `arg[15:8]`, `block` is `arg[7:0]`. -/
  | dec (rsv : BitVec 8) (block : Block)
  /-- SINIT, format Z: start a search (44_key_search.md R79). `rsv` is all of `arg`. -/
  | sinit (rsv : BitVec 16)
  /-- SPAIR, format P: one search round (44_key_search.md R80). `pt` is `arg[15:8]`, `ct` is `arg[7:0]`. -/
  | spair (pt ct : Block)
  /-- RD, format A: read one word (45_state_access.md R87). `rsv` is `arg[15:8]`, `addr` is `arg[7:0]`. -/
  | rd (rsv : BitVec 8) (addr : Addr)
  deriving DecidableEq, Repr

end Sys2Proof
end

