-- ==== Sys2Proof/WellFormed.lean ====
section
/-! DEFINITION. Well-formed commands: every reserved bit is zero (30_encoding.md R34). An ill-formed command is still a
command word with one outcome, ERR_INVALID_LENGTH, which its meaning gives (60_exceptions.md R90). -/

namespace Sys2Proof

/-- Reserved bits must be zero (30_encoding.md R33, R34). -/
def Instr.wellFormed : Instr → Bool
  | .ldkey rsv _ => rsv == 0#6
  | .enc rsv _ => rsv == 0#8
  | .dec rsv _ => rsv == 0#8
  | .sinit rsv => rsv == 0#16
  | .spair _ _ => true
  | .rd rsv _ => rsv == 0#8

end Sys2Proof
end

