-- ==== Sys2Proof/Decode.lean ====
section
/-! DEFINITION. Decoding and encoding command words (30_encoding.md R32 to R37). The decoder is total on the 2^20 words:
it answers a command for `op` 1 to 6, whatever the reserved bits, and rejects the other ten `op` values by name. -/

namespace Sys2Proof

/-- Why a word is no command. The block answers it with ERR_ILLEGAL_CMD (30_encoding.md R36). -/
inductive DecodeError where
  /-- `op` is 0x0 or 0x7 to 0xF and selects no command (30_encoding.md R36). -/
  | illegalCommand (op : BitVec 4)
  deriving DecidableEq, Repr

/-- `op = cmd[19:16]` (30_encoding.md R32). -/
def opField (w : CmdWord) : BitVec 4 := w.extractLsb' 16 4

/-- `arg = cmd[15:0]` (30_encoding.md R32). -/
def argField (w : CmdWord) : BitVec 16 := w.extractLsb' 0 16

/-- `arg[15:10]`, reserved in format K (30_encoding.md R33). -/
def rsvK (arg : BitVec 16) : BitVec 6 := arg.extractLsb' 10 6

/-- `key = arg[9:0]` of format K (30_encoding.md R33, R34). -/
def keyOperand (arg : BitVec 16) : Key := arg.extractLsb' 0 10

/-- `arg[15:8]`: reserved in formats B and A, `pt` in format P (30_encoding.md R33). -/
def argHigh (arg : BitVec 16) : BitVec 8 := arg.extractLsb' 8 8

/-- `arg[7:0]`: `block` in format B, `ct` in format P, `addr` in format A (30_encoding.md R33). -/
def argLow (arg : BitVec 16) : BitVec 8 := arg.extractLsb' 0 8

/-- The command a word stands for (30_encoding.md R35), or why there is none (R36). `op` alone selects the command. -/
def decode (w : CmdWord) : Except DecodeError Instr :=
  let arg := argField w
  match (opField w).toNat with
  | 1 => .ok (.ldkey (rsvK arg) (keyOperand arg))
  | 2 => .ok (.enc (argHigh arg) (argLow arg))
  | 3 => .ok (.dec (argHigh arg) (argLow arg))
  | 4 => .ok (.sinit arg)
  | 5 => .ok (.spair (argHigh arg) (argLow arg))
  | 6 => .ok (.rd (argHigh arg) (argLow arg))
  | _ => .error (.illegalCommand (opField w))

/-- The `op` of each command (30_encoding.md R35). -/
def opcode : Instr → BitVec 4
  | .ldkey _ _ => 0x1
  | .enc _ _ => 0x2
  | .dec _ _ => 0x3
  | .sinit _ => 0x4
  | .spair _ _ => 0x5
  | .rd _ _ => 0x6

/-- The `arg` of each command, fields laid out as in the formats of 30_encoding.md R33. -/
def encodeArg : Instr → BitVec 16
  | .ldkey rsv key => rsv ++ key
  | .enc rsv block => rsv ++ block
  | .dec rsv block => rsv ++ block
  | .sinit rsv => rsv
  | .spair pt ct => pt ++ ct
  | .rd rsv addr => rsv ++ addr

/-- The word of a command: `op` above `arg` (30_encoding.md R32). -/
def encode (i : Instr) : CmdWord := opcode i ++ encodeArg i

/-- The reserved bits of each command's word, `reserved_zero_mask` of spec/opcode_table.json (30_encoding.md R33). -/
def reservedMask : Instr → CmdWord
  | .ldkey _ _ => 0x0FC00
  | .enc _ _ => 0x0FF00
  | .dec _ _ => 0x0FF00
  | .sinit _ => 0x0FFFF
  | .spair _ _ => 0x00000
  | .rd _ _ => 0x0FF00

/-- The command word of a table word `w` given in `nbits` bits, bit 0 the least significant (log 15): a command is 20
bits (30_encoding.md R37), so a number with a bit above bit 19 is no command word. -/
def tableWord (nbits w : Nat) : Option CmdWord :=
  if w % 2 ^ nbits < 2 ^ 20 then some (BitVec.ofNat 20 (w % 2 ^ nbits)) else none

/-- What the decoder reads from an instruction whose bits are `w`, numbered as spec/opcode_table.json numbers them. -/
def decodeTableWord (nbits w : Nat) : Option Instr :=
  match tableWord nbits w with
  | some word => (decode word).toOption
  | none => none

end Sys2Proof
end

