-- ==== Sys2Proof/Machine/BitSeq.lean ====
section
/-! DEFINITION. The Bit-Permutation Utility (40_bit_utilities.md): `permute`, `rotateLeft`, the six permutation tables,
and the splits of a sequence into halves. A sequence of length n is a `BitVec n` with position 1 in its most
significant bit (00_scope.md R6). `xor` is `^^^` (R50) and concatenation is `++` (R51). -/

namespace Sys2Proof.Machine

/-- `s{i}`: the bit at 1-indexed position `i`, `1 ≤ i ≤ n`; `V[n-i] = s{i}` (00_scope.md R6). DESIGN CHOICE (log 12): the
spec gives no other position; here `s{0}` is false and `s{i}` for `i > n` is the last bit, `s{n}` (false if `n = 0`). -/
def pos {n : Nat} (s : BitVec n) (i : Nat) : Bool := s.getLsbD (n - i)

/-- `val` of the sequence of length `n` whose bit at position `i` is `f i`: the sum of `s{i} * 2^(n-i)` (00_scope.md
R6). -/
def positionsValue : Nat → (Nat → Bool) → Nat
  | 0, _ => 0
  | n + 1, f => 2 * positionsValue n f + (f (n + 1)).toNat

/-- The sequence of length `n` whose bit at position `i` is `f i` (00_scope.md R6). -/
def ofPositions (n : Nat) (f : Nat → Bool) : BitVec n := seq n (positionsValue n f)

/-- A permutation table for inputs of length `m` and outputs of length `n`: 1-based source indices, each valid for the
input (40_bit_utilities.md R42). An invalid table cannot be built, so `permute` has no error case (log 12). -/
structure PermTable (m n : Nat) where
  entries : List Nat
  length_eq : entries.length = n
  inRange : ∀ e ∈ entries, 1 ≤ e ∧ e ≤ m

/-- `T{i}`: the i-th entry of a table, 1-indexed, `1 ≤ i ≤ n` (40_bit_utilities.md R42). DESIGN CHOICE (log 12): the spec
gives no other entry; here `T{0}` is the first entry (0 if the table is empty) and `T{i}` for `i > n` is 0. -/
def PermTable.entry {m n : Nat} (T : PermTable m n) (i : Nat) : Nat := T.entries.getD (i - 1) 0

/-- `permute(s, T){i} = s{T{i}}` (40_bit_utilities.md R42). -/
def permute {m n : Nat} (T : PermTable m n) (s : BitVec m) : BitVec n :=
  ofPositions n fun i => pos s (T.entry i)

/-- `rotateLeft(s, n){i} = s{((i - 1 + n) mod m) + 1}` (40_bit_utilities.md R43). -/
def rotateLeft {m : Nat} (s : BitVec m) (n : Nat) : BitVec m :=
  ofPositions m fun i => pos s ((i - 1 + n) % m + 1)

/-- P10 (40_bit_utilities.md R44). -/
def p10 : PermTable 10 10 := ⟨[3, 5, 2, 7, 4, 10, 1, 9, 8, 6], rfl, by decide⟩

/-- P8 (40_bit_utilities.md R45). -/
def p8 : PermTable 10 8 := ⟨[6, 3, 7, 4, 8, 5, 10, 9], rfl, by decide⟩

/-- IP, the initial permutation (40_bit_utilities.md R46). -/
def ip : PermTable 8 8 := ⟨[2, 6, 3, 1, 4, 8, 5, 7], rfl, by decide⟩

/-- IP⁻¹, the inverse initial permutation (40_bit_utilities.md R47). -/
def ipInv : PermTable 8 8 := ⟨[4, 1, 3, 5, 7, 2, 8, 6], rfl, by decide⟩

/-- EP, the expansion permutation (40_bit_utilities.md R48). -/
def ep : PermTable 4 8 := ⟨[4, 1, 2, 3, 2, 3, 4, 1], rfl, by decide⟩

/-- P4 (40_bit_utilities.md R49). -/
def p4 : PermTable 4 4 := ⟨[2, 4, 3, 1], rfl, by decide⟩

/-- `k{1..5}` of a 10-bit sequence (40_bit_utilities.md R51). -/
def keyLeft (k : Key) : KeyHalf := k.extractLsb' 5 5

/-- `k{6..10}` of a 10-bit sequence (40_bit_utilities.md R51). -/
def keyRight (k : Key) : KeyHalf := k.extractLsb' 0 5

/-- `b{1..4}` of an 8-bit sequence: `V[7:4]` (40_bit_utilities.md R51). -/
def leftHalf (b : Block) : Half := b.extractLsb' 4 4

/-- `b{5..8}` of an 8-bit sequence: `V[3:0]` (40_bit_utilities.md R51). -/
def rightHalf (b : Block) : Half := b.extractLsb' 0 4

end Sys2Proof.Machine
end

