-- ==== Sys2Proof/Machine/KeySchedule.lean ====
section
/-! DEFINITION. The Key Schedule Generator (41_key_schedule.md R53, R55): a pure function, total on the 1024 keys. -/

namespace Sys2Proof.Machine

/-- `deriveSubkeys(key)`: `(subkey1, subkey2)` (41_key_schedule.md R53). The halves rotated for subkey2 are the ones
already rotated for subkey1. -/
def deriveSubkeys (key : Key) : Subkey × Subkey :=
  let k := permute p10 key
  let left1 := rotateLeft (keyLeft k) 1
  let right1 := rotateLeft (keyRight k) 1
  let left2 := rotateLeft left1 2
  let right2 := rotateLeft right1 2
  (permute p8 (left1 ++ right1), permute p8 (left2 ++ right2))

end Sys2Proof.Machine
end

