-- ==== Sys2Proof/Machine/RoundFunction.lean ====
section
/-! DEFINITION. The Round Function F and its two S-boxes (42_round_function.md R58 to R62, R64). -/

namespace Sys2Proof.Machine

/-- A 4×4 table of 2-bit values, rows outermost (42_round_function.md R58). -/
abbrev SBox := Vector (Vector (BitVec 2) 4) 4

/-- S0, the literal of 42_round_function.md R58 (log 13). -/
def sbox0 : SBox := #v[#v[1, 0, 3, 2], #v[3, 2, 1, 0], #v[0, 2, 1, 3], #v[3, 1, 0, 2]]

/-- S1, the literal of 42_round_function.md R59 (log 13). -/
def sbox1 : SBox := #v[#v[0, 1, 2, 3], #v[2, 3, 1, 0], #v[3, 0, 1, 2], #v[2, 1, 0, 3]]

/-- `row = 2 * g{1} + g{4}` (42_round_function.md R60). -/
def sboxRow (g : Half) : BitVec 2 := BitVec.ofBool (pos g 1) ++ BitVec.ofBool (pos g 4)

/-- `col = 2 * g{2} + g{3}` (42_round_function.md R60). -/
def sboxCol (g : Half) : BitVec 2 := BitVec.ofBool (pos g 2) ++ BitVec.ofBool (pos g 3)

/-- `S[row][col]`. -/
def sboxAt (S : SBox) (row col : BitVec 2) : BitVec 2 := (S[row.toNat]'row.isLt)[col.toNat]'col.isLt

/-- The output of an S-box for a 4-bit group, as a 2-bit sequence, most significant bit first (42_round_function.md R60,
R61). -/
def sboxOut (S : SBox) (g : Half) : BitVec 2 := sboxAt S (sboxRow g) (sboxCol g)

/-- `F(half, subkey)` (42_round_function.md R62). -/
def roundF (half : Half) (subkey : Subkey) : Half :=
  let mixed := permute ep half ^^^ subkey
  permute p4 (sboxOut sbox0 (leftHalf mixed) ++ sboxOut sbox1 (rightHalf mixed))

end Sys2Proof.Machine
end

