-- ==== Sys2Proof/Machine/CipherEngine.lean ====
section
/-! DEFINITION. The Cipher Engine's functions (43_cipher_engine.md R65 to R68): pure functions of the subkeys and the
block, used alike by ENC, DEC and the search oracle (42_round_function.md R64, 90_conflicts.md C4). -/

namespace Sys2Proof.Machine

/-- `fk(bits, subkey)`, one Feistel round (43_cipher_engine.md R65). -/
def fk (bits : Block) (subkey : Subkey) : Block :=
  (leftHalf bits ^^^ roundF (rightHalf bits) subkey) ++ rightHalf bits

/-- `swap(bits)`: exchange the two halves (43_cipher_engine.md R66). -/
def swap (bits : Block) : Block := rightHalf bits ++ leftHalf bits

/-- `encrypt(plaintext)` of a cipher instance holding `k1`, `k2` (43_cipher_engine.md R67). -/
def encrypt (k1 k2 : Subkey) (plaintext : Block) : Block :=
  permute ipInv (fk (swap (fk (permute ip plaintext) k1)) k2)

/-- `decrypt(ciphertext)` of a cipher instance holding `k1`, `k2`: the subkeys exchanged (43_cipher_engine.md R68). -/
def decrypt (k1 k2 : Subkey) (ciphertext : Block) : Block :=
  permute ipInv (fk (swap (fk (permute ip ciphertext) k2)) k1)

/-- `encrypt_k(p)`: `encrypt` with the subkeys of key `k` (43_cipher_engine.md R67). -/
def encryptWith (key : Key) (plaintext : Block) : Block :=
  encrypt (deriveSubkeys key).1 (deriveSubkeys key).2 plaintext

/-- `decrypt_k(c)`: `decrypt` with the subkeys of key `k` (43_cipher_engine.md R68). -/
def decryptWith (key : Key) (ciphertext : Block) : Block :=
  decrypt (deriveSubkeys key).1 (deriveSubkeys key).2 ciphertext

end Sys2Proof.Machine
end

