-- ==== Sys2Proof/Machine/KeySearch.lean ====
section
/-! DEFINITION. The Brute-Force Key-Search Engine's functions (44_key_search.md R74 to R77): the oracle, one filter
round on the candidate bitmap, the candidate count, and `recoverKey` as the source states it. -/

namespace Sys2Proof.Machine

/-- A known pair `(plaintext, ciphertext)` (00_scope.md section 5). -/
abbrev KnownPair := Block × Block

/-- The bitmap of `n` bits whose bit `k` is `f k`. -/
def bitmapOf : (n : Nat) → (Nat → Bool) → BitVec n
  | 0, _ => 0#0
  | n + 1, f => BitVec.cons (f n) (bitmapOf n f)

/-- `match(k, pt, ct)`: does the key of value `k` encrypt `pt` to `ct`? (44_key_search.md R74, R75) The candidates are the
`k` below 1024; a larger `k`, which no command tests, stands for `k mod 1024` (DESIGN CHOICE, log 17). -/
def oracle (k : Nat) (pt ct : Block) : Bool := encryptWith (seq 10 k) pt == ct

/-- `filter(C, pt, ct)` on the bitmap: `CAND'[k] = CAND[k] and match(k, pt, ct)` (44_key_search.md R76).
Irreducible, so that a unification never evaluates the 1024 oracles. -/
@[irreducible]
def filterCandidates (cand : CandMap) (pt ct : Block) : CandMap :=
  bitmapOf 1024 fun k => cand.getLsbD k && oracle k pt ct

/-- All 1024 keys (44_key_search.md R74, R79). -/
def allCandidates : CandMap := BitVec.allOnes 1024

/-- The number of candidates: the sum over k of `CAND[k]` (10_state.md R14). Irreducible, as above. -/
@[irreducible]
def candCount (cand : CandMap) : Nat := (List.range 1024).countP fun k => cand.getLsbD k

/-- The smallest `k` with `CAND[k] = 1`, if there is one (10_state.md R19). Irreducible, as above. -/
@[irreducible]
def smallestCandidate (cand : CandMap) : Option Nat := (List.range 1024).find? fun k => cand.getLsbD k

/-- The rounds of `recoverKey` from a candidate set: filter, record the count, stop at exactly one (44_key_search.md
R77, R82, R83). The result is the remaining keys and the per-round counts. -/
def recoverFrom (cand : CandMap) : List KnownPair → CandMap × List Nat
  | [] => (cand, [])
  | (pt, ct) :: rest =>
    let cand' := filterCandidates cand pt ct
    if candCount cand' = 1 then (cand', [1])
    else ((recoverFrom cand' rest).1, candCount cand' :: (recoverFrom cand' rest).2)

/-- `recoverKey(pairs)` (44_key_search.md R77). -/
def recoverKey (pairs : List KnownPair) : CandMap × List Nat := recoverFrom allCandidates pairs

end Sys2Proof.Machine
end

