-- ==== Sys2Proof/Machine/State.lean ====
section
/-! DEFINITION. The state of the S-DES CORE (10_state.md R9), the port's two channels at the transaction level
(70_reset_and_hazards.md R102, R110), and the reasons a step could stop (none is ever used). -/

namespace Sys2Proof.Machine

/-- The status of a response, the eight codes that are ever produced (30_encoding.md R39, 93_implementation_defined.md
U7). A status other than `ok` says that the command was refused and that nothing changed (60_exceptions.md R89). -/
inductive Status where
  /-- `0x0`: the command was performed. -/
  | ok
  /-- `0x1`: `op` selects no command. -/
  | errIllegalCmd
  /-- `0x2`: a reserved bit of `arg` is 1; the source's `InvalidLength`. -/
  | errInvalidLength
  /-- `0x3`: the command needs K1 and K2 and KEYV = 0. -/
  | errNoKey
  /-- `0x4`: the command needs the search state and SACT = 0. -/
  | errNoSearch
  /-- `0x5`: the search has narrowed to one key and the pair is not consumed. -/
  | doneNotConsumed
  /-- `0x6`: no room to record another round. -/
  | errRcntFull
  /-- `0x7`: the address is unmapped, or an RCNT entry that holds no value. -/
  | errBadAddr
  deriving DecidableEq, Repr

/-- A response: `status` and `data` (30_encoding.md R38). -/
structure Response where
  status : Status
  data : DataWord
  deriving DecidableEq, Repr

/-- One transaction at the host port (70_reset_and_hazards.md R102, R110, log 5 and 7). -/
inductive HostInput where
  /-- A command word that the block accepts and answers (R102). -/
  | cmd (w : CmdWord)
  /-- A word presented while `cmd_ready` = 0 or while `rst` is asserted: it is not accepted (R102, R100). -/
  | ignored (w : CmdWord)
  /-- `rst` asserted and released (R100); `inProgress` is the command that was in progress, if there was one. -/
  | rst (inProgress : Option CmdWord)
  deriving DecidableEq, Repr

/-- The architected cipher instance: the two cached subkeys (10_state.md R10, 90_conflicts.md C4). -/
structure CipherInstance where
  /-- K1, subkey1. -/
  k1 : Subkey
  /-- K2, subkey2. -/
  k2 : Subkey
  deriving DecidableEq, Repr

/-- A search invocation (10_state.md R12 to R15). -/
structure Search where
  /-- CAND: bit `k` is 1 iff the key of value `k` is a candidate (R13). -/
  cand : CandMap
  /-- COUNT: the number of candidates (R14). -/
  count : Count
  /-- NROUNDS: the number of search rounds performed since SINIT (R15). -/
  nrounds : BitVec 7
  /-- RCNT: the count after each round, `none` for an entry that holds no value (R15, 93_implementation_defined.md U4).
  64 entries, the width of the RCNT address window (20_memory.md R23); entries from RCNT_DEPTH up are never written. -/
  rcnt : Vector (Option Count) 64
  deriving DecidableEq, Repr

/-- The whole state (10_state.md R9). KEYV is the tag of `cipher` and SACT the tag of `search`: while KEYV = 0 no
cipher instance exists and K1, K2 hold no value (R11), while SACT = 0 no search invocation exists (R12). DESIGN CHOICE
(safe, log 2 and 3). The last two fields are the model's own: the port (log 5 and 6). -/
structure State where
  /-- KEYV, K1, K2. -/
  cipher : Option CipherInstance
  /-- SACT, CAND, COUNT, NROUNDS, RCNT. -/
  search : Option Search
  /-- The response channel: the response of the command the last step performed, if it performed one (R102, R38). -/
  rsp : Option Response
  /-- What the host does next, in order (R110). -/
  inputs : List HostInput
  deriving DecidableEq, Repr

/-- KEYV (10_state.md R11): 1 when a cipher instance exists. -/
def State.keyv (s : State) : Bool := s.cipher.isSome

/-- SACT (10_state.md R12): 1 when a search invocation exists. -/
def State.sact (s : State) : Bool := s.search.isSome

/-- The machine right after reset (10_state.md R21, 70_reset_and_hazards.md R100): KEYV = 0, SACT = 0, every other
element without a value, no response produced (log 6), and nothing presented by the host (log 5). -/
def State.reset : State where
  cipher := none
  search := none
  rsp := none
  inputs := []

/-- Why a step would fault. It has NO constructor, so no step can fault: this hardware's only kind of fault is a
refused command, which is a response and a next state (60_exceptions.md R89, R94; log 10; safe). -/
inductive Fault where
  deriving DecidableEq, Repr

/-- Why a step would give a command no meaning. -/
inductive Refusal where
  /-- Raised by an arm of `exec` whose command has no meaning yet. No arm raises it: all six commands have their
  meaning (safe: it would only stop a run). -/
  | notModelled (mnemonic : String)
  deriving DecidableEq, Repr

/-- The outcome of a command or of a step (Host/Core.lean). -/
abbrev Result := Host.Outcome State Fault Refusal

end Sys2Proof.Machine
end

