-- ==== Sys2Proof/Machine/Ops.lean ====
section
/-! DEFINITION. The named operations on the state: responding and refusing (the one shared operation that stands in the
place of taking an exception, 60_exceptions.md R89, R94; there is no return from one, R95), constructing the cipher
instance, starting a search and recording a round, reset, and the port's transactions. -/

namespace Sys2Proof.Machine

/-- The 4-bit code of a status (30_encoding.md R39). -/
def statusCode : Status → BitVec 4
  | .ok => 0x0
  | .errIllegalCmd => 0x1
  | .errInvalidLength => 0x2
  | .errNoKey => 0x3
  | .errNoSearch => 0x4
  | .doneNotConsumed => 0x5
  | .errRcntFull => 0x6
  | .errBadAddr => 0x7

/-- The response word `rsp[19:0]`: `status` above `data` (30_encoding.md R38). -/
def responseWord (r : Response) : RspWord := statusCode r.status ++ r.data

/-- `respond(status, data)`: drive the response and complete the command (00_scope.md R7). -/
def respond (status : Status) (data : DataWord) (s : State) : State := { s with rsp := some ⟨status, data⟩ }

/-- `refuse(status)`: data 0x0000 and no state element changed (60_exceptions.md R89). -/
def refuse (status : Status) (s : State) : State := respond status 0#16 s

/-- K1 and K2 written together, KEYV set: the construction of a cipher instance (41_key_schedule.md R56). -/
def setCipher (k1 k2 : Subkey) (s : State) : State := { s with cipher := some ⟨k1, k2⟩ }

/-- The search state written whole, SACT set (10_state.md R12). -/
def setSearch (q : Search) (s : State) : State := { s with search := some q }

/-- The search state SINIT leaves: all keys are candidates, COUNT = 1024, NROUNDS = 0, and no RCNT entry holds a value
(44_key_search.md R79, 10_state.md R15). -/
def freshSearch : Search where
  cand := allCandidates
  count := 1024#11
  nrounds := 0#7
  rcnt := Vector.replicate 64 none

/-- `RCNT[i]`: `none` when the entry holds no value or does not exist (10_state.md R15). -/
def rcntAt (q : Search) (i : Nat) : Option Count := q.rcnt[i]?.join

/-- The writes of one search round, all together: CAND, COUNT, RCNT[NROUNDS], NROUNDS (44_key_search.md R80). A write
of an RCNT entry that does not exist, in a state that no run reaches, is lost (log 11). -/
def recordRound (cand : CandMap) (q : Search) : Search where
  cand := cand
  count := BitVec.ofNat 11 (candCount cand)
  nrounds := q.nrounds + 1#7
  rcnt := q.rcnt.setIfInBounds q.nrounds.toNat (some (BitVec.ofNat 11 (candCount cand)))

/-- The search state after one round against a pair (44_key_search.md R76, R80). -/
def searchRound (pt ct : Block) (q : Search) : Search := recordRound (filterCandidates q.cand pt ct) q

/-- Reset (70_reset_and_hazards.md R100, 10_state.md R21): KEYV and SACT are 0, nothing else holds a value, and a
command in progress is abandoned without a response. -/
def applyReset (s : State) : State := { s with cipher := none, search := none, rsp := none }

/-- A transaction in which no command completes: no response is presented and nothing else changes
(70_reset_and_hazards.md R102, R110; log 6). -/
def noCommand (s : State) : State := { s with rsp := none }

/-- The head of what the host does next, taken off the list (70_reset_and_hazards.md R110). -/
def nextInput (s : State) : Option (HostInput × State) :=
  match s.inputs with
  | [] => none
  | x :: rest => some (x, { s with inputs := rest })

/-- The host presents the command word `w` next (70_reset_and_hazards.md R102). -/
def presentWord (w : CmdWord) (s : State) : State := { s with inputs := .cmd w :: s.inputs }

/-- The answer to a word that is no command (30_encoding.md R36, 60_exceptions.md R90). -/
def refuseIllegal (s : State) : Result := .next (refuse .errIllegalCmd s)

end Sys2Proof.Machine
end

