-- ==== Sys2Proof/Machine/Operands.lean ====
section
/-! DEFINITION. What a command checks before its effect, each check once, in the order of 60_exceptions.md R93: the
reserved bits of its operand form (30_encoding.md R34), and the presence of the state it needs. -/

namespace Sys2Proof.Machine

/-- Reserved bits of `arg` all zero? If not: ERR_INVALID_LENGTH (30_encoding.md R34, 60_exceptions.md R93 step 2). -/
def withReserved {n : Nat} (rsv : BitVec n) (s : State) (run : Result) : Result :=
  if rsv ≠ 0#n then .next (refuse .errInvalidLength s) else run

/-- The cipher instance a command needs, else ERR_NO_KEY (60_exceptions.md R93 step 4, 10_state.md R11). -/
def withCipher (s : State) (run : CipherInstance → Result) : Result :=
  match s.cipher with
  | none => .next (refuse .errNoKey s)
  | some c => run c

/-- The search invocation a command needs, else ERR_NO_SEARCH (60_exceptions.md R93 step 4, 10_state.md R12). -/
def withSearch (s : State) (run : Search → Result) : Result :=
  match s.search with
  | none => .next (refuse .errNoSearch s)
  | some q => run q

end Sys2Proof.Machine
end

