-- ==== Sys2Proof/Machine/Flags.lean ====
section
/-! DEFINITION. The derived words of the S-DES CORE: STATUS, its OUTCOME field, and SKEY (10_state.md R17, R19). They
are computed from the state and nothing writes them; they are the only flags the hardware has. -/

namespace Sys2Proof.Machine

/-- STATUS.OUTCOME (10_state.md R17): 0 without a search, 1 UNIQUE, 2 NONE, 3 MULTIPLE (44_key_search.md R78). -/
def outcomeField (search : Option Search) : BitVec 2 :=
  match search with
  | none => 0#2
  | some q => if q.count = 1#11 then 1#2 else if q.count = 0#11 then 2#2 else 3#2

/-- STATUS (10_state.md R17): `[0]` KEYV, `[1]` SACT, `[3:2]` OUTCOME, `[15:4]` zero. -/
def statusWord (s : State) : DataWord :=
  0#12 ++ (outcomeField s.search ++ (BitVec.ofBool s.sact ++ BitVec.ofBool s.keyv))

/-- SKEY when there is no candidate: the none flag, bit 15, and no key (10_state.md R19). -/
def noSkey : DataWord := 0x8000#16

/-- SKEY (10_state.md R19). Where COUNT is not 0 and yet no bit of CAND is set, a state that no run reaches, it is also
the none flag (DESIGN CHOICE, log 11). -/
def skeyWord (q : Search) : DataWord :=
  if q.count = 0#11 then noSkey
  else match smallestCandidate q.cand with
    | some k => BitVec.ofNat 16 k
    | none => noSkey

end Sys2Proof.Machine
end

