-- ==== Sys2Proof/Machine/ReadSpace.lean ====
section
/-! DEFINITION. The read address space: 256 words of 16 bits, read-only, computed from the state (20_memory.md R22 to
R28). There is no other memory and no write path (log 8). -/

namespace Sys2Proof.Machine

/-- The names of the mapped words (20_memory.md R23). -/
inductive WordName where
  | status
  | keys
  | count
  | nrounds
  | skey
  | rcnt (i : Fin 64)
  | candw (w : Fin 64)
  deriving DecidableEq, Repr

/-- The address map: the word an address names, `none` where it is unmapped (20_memory.md R23). -/
def wordName (addr : Addr) : Option WordName :=
  let a := addr.toNat
  if a = 0x00 then some .status
  else if a = 0x01 then some .keys
  else if a = 0x02 then some .count
  else if a = 0x03 then some .nrounds
  else if a = 0x04 then some .skey
  else if h : 0x40 ≤ a ∧ a < 0x80 then some (.rcnt ⟨a - 0x40, by omega⟩)
  else if h : 0x80 ≤ a ∧ a < 0xC0 then some (.candw ⟨a - 0x80, by omega⟩)
  else none

/-- The address of a named word (20_memory.md R23). -/
def wordAddr : WordName → Addr
  | .status => 0x00
  | .keys => 0x01
  | .count => 0x02
  | .nrounds => 0x03
  | .skey => 0x04
  | .rcnt i => BitVec.ofNat 8 (0x40 + i.val)
  | .candw w => BitVec.ofNat 8 (0x80 + w.val)

/-- CANDW[w]: bit `b` is `CAND[16*w + b]` (20_memory.md R23, R24). -/
def candWord (cand : CandMap) (w : Nat) : DataWord := cand.extractLsb' (16 * w) 16

/-- The KEYS word, `K1 ++ K2` (20_memory.md R23, R24). -/
def keysWord (c : CipherInstance) : DataWord := c.k1 ++ c.k2

/-- RCNT[i] as a word, or ERR_BAD_ADDR where the entry holds no value: `i >= NROUNDS` (20_memory.md R23), or, in a state
that no run reaches, an entry below NROUNDS that was never written (92_eei_decisions.md D23, log 4). -/
def readRcnt (q : Search) (i : Nat) : Except Status DataWord :=
  if q.nrounds.toNat ≤ i then .error .errBadAddr
  else match rcntAt q i with
    | some n => .ok (n.setWidth 16)
    | none => .error .errBadAddr

/-- A word of the search state, or ERR_NO_SEARCH while SACT = 0 (20_memory.md R23). -/
def readSearch (s : State) (read : Search → Except Status DataWord) : Except Status DataWord :=
  match s.search with
  | none => .error .errNoSearch
  | some q => read q

/-- The KEYS word, or ERR_NO_KEY while KEYV = 0 (20_memory.md R23). -/
def readKeys (s : State) : Except Status DataWord :=
  match s.cipher with
  | none => .error .errNoKey
  | some c => .ok (keysWord c)

/-- The value of a named word, or the status that says why it has none (20_memory.md R23, 45_state_access.md R87). -/
def readWord (s : State) : WordName → Except Status DataWord
  | .status => .ok (statusWord s)
  | .keys => readKeys s
  | .count => readSearch s fun q => .ok (q.count.setWidth 16)
  | .nrounds => readSearch s fun q => .ok (q.nrounds.setWidth 16)
  | .skey => readSearch s fun q => .ok (skeyWord q)
  | .rcnt i => readSearch s fun q => readRcnt q i.val
  | .candw w => readSearch s fun q => .ok (candWord q.cand w.val)

/-- `MemRead(addr, 16)`: the word at an address, or the status that says why it has no value (20_memory.md R22, R23). -/
def memRead (s : State) (addr : Addr) : Except Status DataWord :=
  match wordName addr with
  | none => .error .errBadAddr
  | some name => readWord s name

end Sys2Proof.Machine
end

