-- ==== Sys2Proof/Machine/AccessCommands.lean ====
section
/-! DEFINITION. State access: RD (45_state_access.md R87, R88), the one load of this command set. -/

namespace Sys2Proof.Machine

/-- RD (45_state_access.md R87): answer the word read, or refuse with the status that says why it has no value. -/
def execRd (rsv : BitVec 8) (addr : Addr) (s : State) : Result :=
  withReserved rsv s <|
    match memRead s addr with
    | .ok w => .next (respond .ok w s)
    | .error status => .next (refuse status s)

end Sys2Proof.Machine
end

