-- ==== Sys2Proof/Machine/CipherCommands.lean ====
section
/-! DEFINITION. The cipher engine's commands: LDKEY (41_key_schedule.md R56), ENC and DEC (43_cipher_engine.md R71,
R72). None reads or writes the search state (10_state.md R20). -/

namespace Sys2Proof.Machine

/-- LDKEY (41_key_schedule.md R56): construct the cipher instance whole, answer `K1 ++ K2`. -/
def execLdkey (rsv : BitVec 6) (key : Key) (s : State) : Result :=
  withReserved rsv s <|
    let k := deriveSubkeys key
    .next (respond .ok (k.1 ++ k.2) (setCipher k.1 k.2 s))

/-- ENC (43_cipher_engine.md R71): encrypt one block with K1, K2. -/
def execEnc (rsv : BitVec 8) (block : Block) (s : State) : Result :=
  withReserved rsv s <| withCipher s fun c =>
    .next (respond .ok ((encrypt c.k1 c.k2 block).setWidth 16) s)

/-- DEC (43_cipher_engine.md R72): decrypt one block with K1, K2. -/
def execDec (rsv : BitVec 8) (block : Block) (s : State) : Result :=
  withReserved rsv s <| withCipher s fun c =>
    .next (respond .ok ((decrypt c.k1 c.k2 block).setWidth 16) s)

end Sys2Proof.Machine
end

