-- ==== Sys2Proof/Config.lean ====
section
/-! DEFINITION. What an implementation of the S-DES CORE fixes and the spec leaves open: the one parameter RCNT_DEPTH
(00_scope.md R5, 92_eei_decisions.md D12). No other behaviour is open, so there is no other free value. -/

namespace Sys2Proof

/-- RCNT_DEPTH less one. DESIGN CHOICE (safe, log 1): RCNT_DEPTH is an open parameter from 1 to 64, so it is a constant
with no body: no proof can see its value, and a statement holds whatever it is. -/
opaque Config.rcntDepthLessOne : Fin 64

/-- RCNT_DEPTH, the number of per-round counts the block can hold: an integer from 1 to 64 (00_scope.md R5). -/
def Config.rcntDepth : Nat := Config.rcntDepthLessOne.val + 1

/-- RCNT_DEPTH is at least 1 (00_scope.md R5). -/
theorem Config.one_le_rcntDepth : 1 ≤ Config.rcntDepth := Nat.le_add_left 1 _

/-- RCNT_DEPTH is at most 64 (00_scope.md R5). -/
theorem Config.rcntDepth_le : Config.rcntDepth ≤ 64 := Config.rcntDepthLessOne.isLt

end Sys2Proof
end

