-- ==== Sys2Proof/Machine/SearchCommands.lean ====
section
/-! DEFINITION. The key-search engine's commands: SINIT and SPAIR (44_key_search.md R79, R80). Neither reads or writes
KEYV, K1, K2 (10_state.md R20). -/

namespace Sys2Proof.Machine

/-- SINIT (44_key_search.md R79): start a search, abandoning one in progress. -/
def execSinit (rsv : BitVec 16) (s : State) : Result :=
  withReserved rsv s <| .next (respond .ok 0x0400#16 (setSearch freshSearch s))

/-- SPAIR in a block of a given RCNT_DEPTH (44_key_search.md R80, R82, R83). -/
def spairAt (depth : Nat) (pt ct : Block) (s : State) : Result :=
  withSearch s fun q =>
    if q.count = 1#11 then .next (refuse .doneNotConsumed s)
    else if q.nrounds.toNat = depth then .next (refuse .errRcntFull s)
    else .next (respond .ok ((searchRound pt ct q).count.setWidth 16) (setSearch (searchRound pt ct q) s))

/-- SPAIR (44_key_search.md R80): one search round against one known pair. -/
def execSpair (pt ct : Block) (s : State) : Result := spairAt Config.rcntDepth pt ct s

end Sys2Proof.Machine
end

