-- ==== Sys2Proof/Machine/Dispatch.lean ====
section
/-! DEFINITION. One arm per command (30_encoding.md R35). -/

namespace Sys2Proof.Machine

def exec (i : Instr) (s : State) : Host.Outcome State Fault Refusal :=
  match i with
  | .ldkey rsv key => Sys2Proof.Machine.execLdkey rsv key s
  | .enc rsv block => Sys2Proof.Machine.execEnc rsv block s
  | .dec rsv block => Sys2Proof.Machine.execDec rsv block s
  | .sinit rsv => Sys2Proof.Machine.execSinit rsv s
  | .spair pt ct => Sys2Proof.Machine.execSpair pt ct s
  | .rd rsv addr => Sys2Proof.Machine.execRd rsv addr s

end Sys2Proof.Machine
end

