-- ==== Sys2Proof/Machine/Step.lean ====
section
/-! DEFINITION. One step: the next transaction at the host port (70_reset_and_hazards.md R102, R110), a whole command
where it is one (R103, R105). -/

namespace Sys2Proof.Machine

/-- One step. With no input left the block is idle (70_reset_and_hazards.md R110); a word presented while `cmd_ready` is
0 or `rst` is asserted is ignored (R102); `rst` resets (R100); an accepted word is decoded and performed, or answered
with ERR_ILLEGAL_CMD (30_encoding.md R36). -/
def step (s : State) : Host.Outcome State Fault Refusal :=
  match nextInput s with
  | none => .next (noCommand s)
  | some (.ignored _, t) => .next (noCommand t)
  | some (.rst _, t) => .next (applyReset t)
  | some (.cmd w, t) =>
    match decode w with
    | .ok i => exec i t
    | .error _ => refuseIllegal t

/-- `s` with a table word presented next on the command port, so that the very next step runs it (log 5, log 15). -/
def State.withFetchWord (s : State) (nbits w : Nat) : State :=
  match tableWord nbits w with
  | some word => presentWord word s
  | none => s

end Sys2Proof.Machine
end

