-- ==== Sys2Proof/Machine/Assembler.lean ====
section
/-! DEFINITION. The assembler syntax of 30_encoding.md R40, on lines already split into mnemonic and operands, and the
two pseudo-instructions of R41 (log 16). It is a notation for command words: nothing of the machine uses it. -/

namespace Sys2Proof.Machine

/-- A key or block operand as written (30_encoding.md R40): a string of characters, or a number. -/
inductive BitsOperand where
  | chars (cs : List Char)
  | number (v : Nat)
  deriving DecidableEq, Repr

/-- An address operand as written (30_encoding.md R40): a number, or a name of 20_memory.md R23. -/
inductive AddrOperand where
  | number (v : Nat)
  | named (name : WordName)
  deriving DecidableEq, Repr

/-- One line of assembly (30_encoding.md R40), `.word` included. -/
inductive AsmLine where
  | ldkey (key : BitsOperand)
  | enc (block : BitsOperand)
  | dec (block : BitsOperand)
  | sinit
  | spair (pt ct : BitsOperand)
  | rd (addr : AddrOperand)
  | word (v : Nat)
  deriving DecidableEq, Repr

/-- Assembly-time errors (30_encoding.md R40, 60_exceptions.md R91). -/
inductive AsmError where
  /-- A string of another length than the operand's, the source's `InvalidLength`. -/
  | invalidLength
  /-- A character other than `0` and `1`, the source's `InvalidCharacter`. -/
  | invalidCharacter
  /-- A number too large for the operand. The spec gives the range and names no error: DESIGN CHOICE (log 16). -/
  | outOfRange
  deriving DecidableEq, Repr

/-- The value of one character of a binary string. -/
def charBit : Char → Except AsmError Bool
  | '0' => .ok false
  | '1' => .ok true
  | _ => .error .invalidCharacter

/-- The value of a binary string, position 1 first (00_scope.md R6). -/
def charsValue : List Char → Nat → Except AsmError Nat
  | [], acc => .ok acc
  | c :: cs, acc =>
    match charBit c with
    | .ok b => charsValue cs (2 * acc + b.toNat)
    | .error e => .error e

/-- A key or block operand of `n` bits: a string of exactly `n` characters `0`/`1`, or a number below `2^n`
(30_encoding.md R40). DESIGN CHOICE (log 16): the spec does not say which error a string with both a wrong character and
a wrong length gets; here it is the wrong character. -/
def bitsOperand (n : Nat) : BitsOperand → Except AsmError (BitVec n)
  | .chars cs =>
    match charsValue cs 0 with
    | .error e => .error e
    | .ok v => if cs.length = n then .ok (BitVec.ofNat n v) else .error .invalidLength
  | .number v => if v < 2 ^ n then .ok (BitVec.ofNat n v) else .error .outOfRange

/-- An address operand (30_encoding.md R40). -/
def addrOperand : AddrOperand → Except AsmError Addr
  | .number v => if v < 2 ^ 8 then .ok (BitVec.ofNat 8 v) else .error .outOfRange
  | .named name => .ok (wordAddr name)

/-- The command word of a line (30_encoding.md R40). The assembler never sets a reserved bit but by `.word`. DESIGN CHOICE
(log 16): where both operands of a SPAIR line are wrong the spec does not say which error it gets; here it is that of
`pt`. -/
def assemble : AsmLine → Except AsmError CmdWord
  | .ldkey key => (bitsOperand 10 key).map fun k => encode (.ldkey 0#6 k)
  | .enc block => (bitsOperand 8 block).map fun b => encode (.enc 0#8 b)
  | .dec block => (bitsOperand 8 block).map fun b => encode (.dec 0#8 b)
  | .sinit => .ok (encode (.sinit 0#16))
  | .spair pt ct =>
    match bitsOperand 8 pt with
    | .error e => .error e
    | .ok p => (bitsOperand 8 ct).map fun c => encode (.spair p c)
  | .rd addr => (addrOperand addr).map fun a => encode (.rd 0#8 a)
  | .word v => if v < 2 ^ 20 then .ok (BitVec.ofNat 20 v) else .error .outOfRange

/-- RECOVER (30_encoding.md R41): SINIT, then one SPAIR per pair in order, all of them issued (those after the early
exit are answered DONE_NOT_CONSUMED). -/
def recoverExpansion (pairs : List KnownPair) : List Instr :=
  .sinit 0#16 :: pairs.map fun p => .spair p.1 p.2

/-- ENCK (30_encoding.md R41): LDKEY, then ENC. -/
def enckExpansion (key : Key) (block : Block) : List Instr := [.ldkey 0#6 key, .enc 0#8 block]

end Sys2Proof.Machine
end

