-- ==== Sys2Proof/Safety.lean ====
section
/-! DEFINITION. The invariants the spec states of every state a run reaches, each on its own, and their conjunction. -/

namespace Sys2Proof.Safety

open Sys2Proof.Machine

/-- K1 and K2 are the subkeys of some key: LDKEY is their only writer (10_state.md R10). -/
def SubkeysDerived (s : State) : Prop :=
  ∀ c, s.cipher = some c → ∃ key, deriveSubkeys key = (c.k1, c.k2)

/-- COUNT is the number of candidates (10_state.md R14). -/
def CountExact (s : State) : Prop :=
  ∀ q, s.search = some q → q.count.toNat = candCount q.cand

/-- NROUNDS never exceeds RCNT_DEPTH (10_state.md R15). -/
def RoundsBounded (s : State) : Prop :=
  ∀ q, s.search = some q → q.nrounds.toNat ≤ Config.rcntDepth

/-- The RCNT entries that hold a value are those below NROUNDS (10_state.md R15). -/
def RoundsRecorded (s : State) : Prop :=
  ∀ q, s.search = some q → ∀ i, (rcntAt q i).isSome = true ↔ i < q.nrounds.toNat

/-- `1024 >= RCNT[0] >= RCNT[1] >= ...` (10_state.md R15). -/
def CountsDescend (s : State) : Prop :=
  ∀ q, s.search = some q → ∀ i j m n, i ≤ j → rcntAt q i = some m → rcntAt q j = some n →
    n.toNat ≤ m.toNat ∧ m.toNat ≤ 1024

/-- `COUNT = RCNT[NROUNDS-1]` when NROUNDS > 0, `COUNT = 1024` when NROUNDS = 0 (10_state.md R15). -/
def CountIsLastRecorded (s : State) : Prop :=
  ∀ q, s.search = some q →
    (q.nrounds = 0#7 → q.count = 1024#11) ∧
      (0 < q.nrounds.toNat → rcntAt q (q.nrounds.toNat - 1) = some q.count)

/-- A response whose status is not OK carries data 0x0000 (30_encoding.md R38, 60_exceptions.md R89). -/
def RefusalsCarryNoData (s : State) : Prop :=
  ∀ r, s.rsp = some r → r.status ≠ .ok → r.data = 0#16

/-- All of them. -/
structure Inv (s : State) : Prop where
  subkeysDerived : SubkeysDerived s
  countExact : CountExact s
  roundsBounded : RoundsBounded s
  roundsRecorded : RoundsRecorded s
  countsDescend : CountsDescend s
  countIsLastRecorded : CountIsLastRecorded s
  refusalsCarryNoData : RefusalsCarryNoData s

end Sys2Proof.Safety
end

