-- ==== Sys2Proof/Certificates/Slice0/Obligations.lean ====
section
/-! DEFINITION. The statements for the provers, from the numbered rules of spec/. A statement whose docstring names a
rule in brackets with the word "stated" formalises that rule; the others rest on the sections they name. -/

open Sys2Proof Sys2Proof.Machine Sys2Proof.Safety

/-! ## Encoding -/

/-- Words written out from the spec's encodings and its refusal examples decode to what they stand for
(30_encoding.md sections 1 and 2; 95_test_vectors.md programs P2, P6). -/
def Obligations.SpecWordsDecode : Prop :=
  decode 0x10282 = .ok (.ldkey 0#6 0x282) ∧ decode 0x10682 = .ok (.ldkey 1#6 0x282) ∧
  decode 0x20097 = .ok (.enc 0#8 0x97) ∧ decode 0x2FF97 = .ok (.enc 0xFF#8 0x97) ∧
  decode 0x30038 = .ok (.dec 0#8 0x38) ∧ decode 0x30138 = .ok (.dec 1#8 0x38) ∧
  decode 0x40000 = .ok (.sinit 0#16) ∧ decode 0x40001 = .ok (.sinit 1#16) ∧
  decode 0x59738 = .ok (.spair 0x97 0x38) ∧
  decode 0x600A8 = .ok (.rd 0#8 0xA8) ∧ decode 0x60105 = .ok (.rd 1#8 0x05) ∧
  decode 0x00000 = .error (.illegalCommand 0x0#4) ∧ decode 0x70000 = .error (.illegalCommand 0x7#4) ∧
  decode 0xF1234 = .error (.illegalCommand 0xF#4)

/-- Decoding the word of a command gives the command back, every field at every value (30_encoding.md sections 1, 2). -/
def Obligations.DecodeOfEncode : Prop := ∀ i : Instr, decode (encode i) = .ok i

/-- A word that decodes to a command is the word of that command: no two words share a meaning (30_encoding.md
sections 1, 2). -/
def Obligations.EncodeOfDecode : Prop := ∀ (w : CmdWord) (i : Instr), decode w = .ok i → encode i = w

/-- The number of each well-formed command's word (30_encoding.md section 4, the column "encodes as"). -/
def Obligations.WordIsBasePlusOperands : Prop :=
  (∀ key, (encode (.ldkey 0#6 key)).toNat = 0x10000 + val key) ∧
  (∀ block, (encode (.enc 0#8 block)).toNat = 0x20000 + val block) ∧
  (∀ block, (encode (.dec 0#8 block)).toNat = 0x30000 + val block) ∧
  (encode (.sinit 0#16)).toNat = 0x40000 ∧
  (∀ pt ct, (encode (.spair pt ct)).toNat = 0x50000 + 256 * val pt + val ct) ∧
  (∀ addr, (encode (.rd 0#8 addr)).toNat = 0x60000 + val addr)

/-- A written operand of `n` bits assembles exactly when it is a string of `n` characters `0`/`1` (character i + 1 is
position i + 1) or a number below `2^n` (30_encoding.md section 4). -/
def Obligations.AssemblerOperandForms : Prop :=
  (∀ (n : Nat) (cs : List Char) (v : BitVec n),
    bitsOperand n (.chars cs) = .ok v ↔
      cs.length = n ∧ (∀ c ∈ cs, c = '0' ∨ c = '1') ∧ ∀ i, i < n → pos v (i + 1) = (cs[i]? == some '1')) ∧
  (∀ (n m : Nat) (v : BitVec n), bitsOperand n (.number m) = .ok v ↔ m < 2 ^ n ∧ v.toNat = m)

/-! ## The machine's step, reset, the port -/

/-- A step whose next transaction is a command word performs the decoded command on the state with that transaction
taken; and a command's word placed for the next step is what that step performs (70_reset_and_hazards.md sections 2
and 4). The list of transactions is the model's form of the port (log 5). -/
def Obligations.StepRunsDecodedCommand : Prop :=
  (∀ (s : State) (w : CmdWord) (rest : List HostInput) (i : Instr), s.inputs = .cmd w :: rest → decode w = .ok i →
    step s = exec i { s with inputs := rest }) ∧
  (∀ (s : State) (i : Instr) (nbits : Nat), 20 ≤ nbits → step (s.withFetchWord nbits (encode i).toNat) = exec i s)

/-- Stated [R36]: an `op` of 0 or 7 to 15 selects no command, whatever `arg` holds: ERR_ILLEGAL_CMD and nothing changes;
a legal `op` with a reserved bit set is refused with ERR_INVALID_LENGTH; every word has exactly one outcome. -/
def Obligations.IllegalWordsRefused : Prop :=
  ∀ (s : State) (w : CmdWord) (rest : List HostInput), s.inputs = .cmd w :: rest →
    ((w.toNat / 65536 = 0 ∨ 7 ≤ w.toNat / 65536) →
      step s = .next { s with inputs := rest, rsp := some ⟨.errIllegalCmd, 0#16⟩ }) ∧
    (1 ≤ w.toNat / 65536 → w.toNat / 65536 ≤ 6 → ∃ i, decode w = .ok i ∧
      (i.wellFormed = false → step s = .next { s with inputs := rest, rsp := some ⟨.errInvalidLength, 0#16⟩ })) ∧
    (∃ t r, step s = .next t ∧ t.rsp = some r)

/-- With no transaction left the block is idle, and a word presented while `cmd_ready` is 0 or `rst` is asserted is
ignored: no response, nothing changes (70_reset_and_hazards.md sections 2 and 4). That the response channel is empty
after such a step is the model's choice (log 6). -/
def Obligations.IdleAndIgnoredWords : Prop :=
  (∀ s : State, s.inputs = [] → step s = .next { s with rsp := none }) ∧
  (∀ (s : State) (w : CmdWord) (rest : List HostInput), s.inputs = .ignored w :: rest →
    step s = .next { s with inputs := rest, rsp := none })

/-- Reset leaves KEYV = 0 and SACT = 0 and no other element with a value, abandons a command in progress with no response
and none of its writes kept, and is the only event that clears KEYV or SACT (70_reset_and_hazards.md section 1). That a
reset, and a word presented while `rst` is asserted, is one transaction is the model's choice (log 7), and so is that the
response channel is empty after it (log 6). -/
def Obligations.ResetClearsAndAloneClears : Prop :=
  (∀ (s : State) (inProgress : Option CmdWord) (rest : List HostInput), s.inputs = .rst inProgress :: rest →
    step s = .next { State.reset with inputs := rest }) ∧
  (∀ (s : State) (w : CmdWord) (rest : List HostInput), s.inputs = .ignored w :: rest →
    step s = .next { s with inputs := rest, rsp := none }) ∧
  (∀ s t : State, step s = .next t → (s.keyv = true ∧ t.keyv = false ∨ s.sact = true ∧ t.sact = false) →
    ∃ inProgress rest, s.inputs = .rst inProgress :: rest)

/-- Stated [R21]: after reset KEYV = 0 and SACT = 0, STATUS reads 0x0000, and every other element is unreadable: each
address is refused for its own reason, and so is every command that would read one. -/
def Obligations.ResetStateIsUnreadable : Prop :=
  State.reset.keyv = false ∧ State.reset.sact = false ∧
  (∀ a : Addr, memRead State.reset a =
    if a.toNat = 0x00 then .ok 0x0000#16
    else if a.toNat = 0x01 then .error .errNoKey
    else if a.toNat ≤ 0x04 ∨ (0x40 ≤ a.toNat ∧ a.toNat < 0xC0) then .error .errNoSearch
    else .error .errBadAddr) ∧
  (∀ block, exec (.enc 0#8 block) State.reset = .next { State.reset with rsp := some ⟨.errNoKey, 0#16⟩ }) ∧
  (∀ block, exec (.dec 0#8 block) State.reset = .next { State.reset with rsp := some ⟨.errNoKey, 0#16⟩ }) ∧
  (∀ pt ct, exec (.spair pt ct) State.reset = .next { State.reset with rsp := some ⟨.errNoSearch, 0#16⟩ })

/-- No run stops: after any number of steps from any state there is a next state, with that many transactions taken
(70_reset_and_hazards.md section 3, "Termination", which the spec marks as its own inference, and section 4). One
transaction a step, and idling with none left, are the model's form of the port (log 5). -/
def Obligations.NoRunStops : Prop :=
  ∀ (k : Nat) (s : State), ∃ t, core.run k s = .next t ∧ t.inputs = s.inputs.drop k

/-! ## The functions of the cipher -/

/-- Stated [R42]: `permute(s, T){i} = s{T{i}}` for every table and position, the entry being a position of the input. -/
def Obligations.PermuteSelectsPositions : Prop :=
  (∀ (m n : Nat) (T : PermTable m n) (s : BitVec m) (i : Nat), 1 ≤ i → i ≤ n →
    1 ≤ T.entry i ∧ T.entry i ≤ m ∧ pos (permute T s) i = pos s (T.entry i)) ∧
  permute p10 0b1010000010 = 0b1000001100

/-- Stated [R43]: `rotateLeft(s, n){i} = s{((i - 1 + n) mod m) + 1}`, which is `s{r+1..m} ++ s{1..r}` for
`r = n mod m`; by 0, by the length, and by more than the length; and the rule's examples. -/
def Obligations.RotateLeftMovesPositions : Prop :=
  (∀ (m : Nat) (s : BitVec m) (n i : Nat), 1 ≤ i → i ≤ m →
    pos (rotateLeft s n) i = pos s ((i - 1 + n) % m + 1) ∧
    pos (rotateLeft s n) i = (if i ≤ m - n % m then pos s (n % m + i) else pos s (i - (m - n % m)))) ∧
  (∀ (m : Nat) (s : BitVec m) (n : Nat), rotateLeft s 0 = s ∧ rotateLeft s m = s ∧
    rotateLeft s n = rotateLeft s (n % m)) ∧
  rotateLeft (0b10000 : BitVec 5) 1 = 0b00001 ∧ rotateLeft (0b00001 : BitVec 5) 2 = 0b00100 ∧
  rotateLeft (0b10110 : BitVec 5) 7 = 0b11010 ∧ rotateLeft (0b10110 : BitVec 5) 5 = 0b10110

/-- The wiring of the six tables, position by position, and one example of each (40_bit_utilities.md section 2). -/
def Obligations.TableWiring : Prop :=
  (∀ s : BitVec 10, (List.range' 1 10).map (pos (permute p10 s)) = [3, 5, 2, 7, 4, 10, 1, 9, 8, 6].map (pos s)) ∧
  (∀ s : BitVec 10, (List.range' 1 8).map (pos (permute p8 s)) = [6, 3, 7, 4, 8, 5, 10, 9].map (pos s)) ∧
  (∀ s : BitVec 8, (List.range' 1 8).map (pos (permute ip s)) = [2, 6, 3, 1, 4, 8, 5, 7].map (pos s)) ∧
  (∀ s : BitVec 8, (List.range' 1 8).map (pos (permute ipInv s)) = [4, 1, 3, 5, 7, 2, 8, 6].map (pos s)) ∧
  (∀ s : BitVec 4, (List.range' 1 8).map (pos (permute ep s)) = [4, 1, 2, 3, 2, 3, 4, 1].map (pos s)) ∧
  (∀ s : BitVec 4, (List.range' 1 4).map (pos (permute p4 s)) = [2, 4, 3, 1].map (pos s)) ∧
  permute p10 0b1010000010 = 0b1000001100 ∧ permute p8 0b0000111000 = 0b10100100 ∧
  permute ip 0b10010111 = 0b01011101 ∧ permute ipInv 0b00101010 = 0b00111000 ∧
  permute ep 0b1101 = 0b11101011 ∧ permute p4 0b0001 = 0b0100 ∧ permute p4 0b1000 = 0b0001

/-- IP and IP⁻¹ undo each other; P10, IP, IP⁻¹ and P4 are bijections, EP is injective, P8 is not (40_bit_utilities.md
section 3, properties the spec marks as its own inference). -/
def Obligations.TableProperties : Prop :=
  (∀ x : Block, permute ipInv (permute ip x) = x ∧ permute ip (permute ipInv x) = x) ∧
  Function.Bijective (permute p10) ∧ Function.Bijective (permute ip) ∧ Function.Bijective (permute ipInv) ∧
  Function.Bijective (permute p4) ∧ Function.Injective (permute ep) ∧ ¬ Function.Injective (permute p8)

/-- Stated [R53]: the key schedule step by step, with its worked example; the halves rotated for subkey2 are the ones
already rotated for subkey1. -/
def Obligations.KeyScheduleSteps : Prop :=
  (∀ (key k : Key) (left0 right0 left1 right1 left2 right2 : KeyHalf),
    k = permute p10 key → k = left0 ++ right0 →
    left1 = rotateLeft left0 1 → right1 = rotateLeft right0 1 →
    left2 = rotateLeft left1 2 → right2 = rotateLeft right1 2 →
    deriveSubkeys key = (permute p8 (left1 ++ right1), permute p8 (left2 ++ right2))) ∧
  deriveSubkeys 0b1010000010#10 = (0b10100100, 0b01000011)

/-- Each subkey bit is one key bit (41_key_schedule.md section 1, the closed form, which the spec marks as its own
inference). -/
def Obligations.SubkeysClosedForm : Prop :=
  ∀ key : Key,
    (List.range' 1 8).map (pos (deriveSubkeys key).1) = [1, 7, 9, 4, 8, 3, 10, 6].map (pos key) ∧
    (List.range' 1 8).map (pos (deriveSubkeys key).2) = [8, 3, 6, 5, 10, 2, 9, 1].map (pos key)

/-- Distinct keys give distinct subkey pairs (41_key_schedule.md section 2, "injectivity", which the spec marks as its
own inference). -/
def Obligations.SubkeysInjective : Prop := Function.Injective deriveSubkeys

/-- Stated [R58, R59, R60, R61, R62]: F with the two tables written out as numbers, row from the first and last bit of a
group, column from the two middle bits, each S-box output as two bits, most significant first; and the rules' examples. -/
def Obligations.RoundFunctionSteps : Prop :=
  (∀ (half : Half) (subkey : Subkey),
    let S0 : List (List Nat) := [[1, 0, 3, 2], [3, 2, 1, 0], [0, 2, 1, 3], [3, 1, 0, 2]]
    let S1 : List (List Nat) := [[0, 1, 2, 3], [2, 3, 1, 0], [3, 0, 1, 2], [2, 1, 0, 3]]
    let mixed := permute ep half ^^^ subkey
    let bit := fun i => (pos mixed i).toNat
    let s0out := (S0.getD (2 * bit 1 + bit 4) []).getD (2 * bit 2 + bit 3) 0
    let s1out := (S1.getD (2 * bit 5 + bit 8) []).getD (2 * bit 6 + bit 7) 0
    roundF half subkey = permute p4 (seq 2 s0out ++ seq 2 s1out)) ∧
  (sboxRow 0b1011).toNat = 3 ∧ (sboxCol 0b1011).toNat = 1 ∧
  roundF 0b1101 0b10100100 = 0b1111 ∧ roundF 0b0001 0b00000000 = 0b0100 ∧
  roundF 0b0010 0b00000000 = 0b1011 ∧ roundF 0b1000 0b00000000 = 0b1011

/-- Stated [R65]: one Feistel round changes the left half alone, by F of the right half, and undoes itself; the rule's
examples. -/
def Obligations.FeistelRoundUndoesItself : Prop :=
  (∀ (bits : Block) (subkey : Subkey),
    leftHalf (fk bits subkey) = leftHalf bits ^^^ roundF (rightHalf bits) subkey ∧
    rightHalf (fk bits subkey) = rightHalf bits ∧ fk (fk bits subkey) subkey = bits) ∧
  fk 0b01011101 0b10100100 = 0b10101101 ∧ fk 0b10101101 0b10100100 = 0b01011101

/-- Stated [R66]: `swap` exchanges the halves and undoes itself. -/
def Obligations.SwapExchangesHalves : Prop :=
  (∀ bits : Block, leftHalf (swap bits) = rightHalf bits ∧ rightHalf (swap bits) = leftHalf bits ∧
    swap (swap bits) = bits) ∧
  swap 0b10101101 = 0b11011010

/-- Stated [R67, R68]: encryption and decryption step by step, one swap between the rounds and none after the second,
the subkeys exchanged for decryption; and the worked examples. -/
def Obligations.CipherSteps : Prop :=
  (∀ (k1 k2 : Subkey) (p b0 b1 b2 b3 : Block), b0 = permute ip p → b1 = fk b0 k1 → b2 = swap b1 → b3 = fk b2 k2 →
    encrypt k1 k2 p = permute ipInv b3) ∧
  (∀ (k1 k2 : Subkey) (c b0 b1 b2 b3 : Block), b0 = permute ip c → b1 = fk b0 k2 → b2 = swap b1 → b3 = fk b2 k1 →
    decrypt k1 k2 c = permute ipInv b3) ∧
  (∀ (key : Key) (k1 k2 : Subkey) (x : Block), deriveSubkeys key = (k1, k2) →
    encryptWith key x = encrypt k1 k2 x ∧ decryptWith key x = decrypt k1 k2 x) ∧
  encryptWith 0b1010000010 0b10010111 = 0b00111000 ∧ decryptWith 0b1010000010 0b00111000 = 0b10010111

/-- Stated [R69]: decryption undoes encryption and encryption undoes decryption, for every subkey pair and so for every
key, and every block. -/
def Obligations.DecryptUndoesEncrypt : Prop :=
  (∀ (k1 k2 : Subkey) (x : Block), decrypt k1 k2 (encrypt k1 k2 x) = x ∧ encrypt k1 k2 (decrypt k1 k2 x) = x) ∧
  (∀ (key : Key) (x : Block), decryptWith key (encryptWith key x) = x ∧ encryptWith key (decryptWith key x) = x)

/-- With equal subkeys ENC and DEC compute the same function and encryption undoes itself; the keys with equal subkeys
are the eight that agree at positions 1, 6, 8, 9, 10, at 2, 3, 7, and at 4, 5 (43_cipher_engine.md section 2, "Equal
subkeys", which the spec marks as its own inference; 95_test_vectors.md section 2.5). -/
def Obligations.EqualSubkeys : Prop :=
  (∀ (k : Subkey) (x : Block), encrypt k k x = decrypt k k x ∧ encrypt k k (encrypt k k x) = x) ∧
  (∀ key : Key, (deriveSubkeys key).1 = (deriveSubkeys key).2 ↔
    key ∈ ([0b0000000000, 0b0001100000, 0b0110001000, 0b0111101000,
            0b1000010111, 0b1001110111, 0b1110011111, 0b1111111111] : List Key))

/-! ## The cipher engine's commands -/

/-- Stated [R56]: LDKEY, complete: its word, its one refusal, its effect and answer, what STATUS then reads, loading the
same key again, the corner keys and the worked example. -/
def Obligations.LdkeyConstructsInstance : Prop :=
  (∀ key, (encode (.ldkey 0#6 key)).toNat = 0x10000 + val key) ∧
  (∀ (rsv : BitVec 6) (key : Key) (s : State), rsv ≠ 0#6 →
    exec (.ldkey rsv key) s = .next { s with rsp := some ⟨.errInvalidLength, 0#16⟩ }) ∧
  (∀ (key : Key) (s : State), ∃ t, exec (.ldkey 0#6 key) s = .next t ∧
    t = { s with cipher := some ⟨(deriveSubkeys key).1, (deriveSubkeys key).2⟩,
                 rsp := some ⟨.ok, BitVec.ofNat 16
                   (val (deriveSubkeys key).1 * 256 + val (deriveSubkeys key).2)⟩ } ∧
    (statusWord t).getLsbD 0 = true ∧ exec (.ldkey 0#6 key) t = .next t) ∧
  deriveSubkeys 0b0000000000#10 = (0, 0) ∧ deriveSubkeys 0b1111111111#10 = (0xFF, 0xFF) ∧
  deriveSubkeys 0b1010000010#10 = (0xA4, 0x43)

/-- Stated [R71]: ENC, complete: its word, its refusals in order, its answer, and that it writes no state. -/
def Obligations.EncAnswersCiphertext : Prop :=
  (∀ block, (encode (.enc 0#8 block)).toNat = 0x20000 + val block) ∧
  (∀ (rsv : BitVec 8) (block : Block) (s : State), rsv ≠ 0#8 →
    exec (.enc rsv block) s = .next { s with rsp := some ⟨.errInvalidLength, 0#16⟩ }) ∧
  (∀ (block : Block) (s : State), s.cipher = none →
    exec (.enc 0#8 block) s = .next { s with rsp := some ⟨.errNoKey, 0#16⟩ }) ∧
  (∀ (block : Block) (s : State) (k1 k2 : Subkey), s.cipher = some ⟨k1, k2⟩ →
    exec (.enc 0#8 block) s = .next { s with rsp := some ⟨.ok, BitVec.ofNat 16 (val (encrypt k1 k2 block))⟩ }) ∧
  encrypt 0xA4 0x43 0b10010111 = 0x38

/-- Stated [R72]: DEC, complete: its word, its refusals in order, its answer, and that it writes no state. -/
def Obligations.DecAnswersPlaintext : Prop :=
  (∀ block, (encode (.dec 0#8 block)).toNat = 0x30000 + val block) ∧
  (∀ (rsv : BitVec 8) (block : Block) (s : State), rsv ≠ 0#8 →
    exec (.dec rsv block) s = .next { s with rsp := some ⟨.errInvalidLength, 0#16⟩ }) ∧
  (∀ (block : Block) (s : State), s.cipher = none →
    exec (.dec 0#8 block) s = .next { s with rsp := some ⟨.errNoKey, 0#16⟩ }) ∧
  (∀ (block : Block) (s : State) (k1 k2 : Subkey), s.cipher = some ⟨k1, k2⟩ →
    exec (.dec 0#8 block) s = .next { s with rsp := some ⟨.ok, BitVec.ofNat 16 (val (decrypt k1 k2 block))⟩ } ∧
    ∀ x : Block, encrypt k1 k2 x = block ↔ x = decrypt k1 k2 block) ∧
  decrypt 0xA4 0x43 0b00111000 = 0x97

/-! ## The key-search engine -/

/-- Stated [R75]: for every candidate the oracle is the test `encrypt_k(pt) = ct`, and `decrypt_k(ct) = pt` selects the
same keys. -/
def Obligations.OracleTestsEncryption : Prop :=
  ∀ (k : Nat) (pt ct : Block), k < 1024 →
    (oracle k pt ct = true ↔ encrypt (deriveSubkeys (seq 10 k)).1 (deriveSubkeys (seq 10 k)).2 pt = ct) ∧
    (oracle k pt ct = true ↔ decryptWith (seq 10 k) ct = pt)

/-- Outside the 1024 candidates, where the spec gives no key, the oracle stands for `k mod 1024`: the model's choice (log
17), which no command reaches; with OracleTestsEncryption it gives the oracle's answer at every number. -/
def Obligations.OracleOutsideCandidates : Prop :=
  ∀ (k : Nat) (pt ct : Block), oracle k pt ct = oracle (k % 1024) pt ct

/-- Stated [R79]: SINIT, complete: its word, its one refusal, its effect from any state, and what STATUS, COUNT, NROUNDS,
the RCNT entries and every CANDW word then read. -/
def Obligations.SinitStartsSearch : Prop :=
  (encode (.sinit 0#16)).toNat = 0x40000 ∧
  (∀ (rsv : BitVec 16) (s : State), rsv ≠ 0#16 →
    exec (.sinit rsv) s = .next { s with rsp := some ⟨.errInvalidLength, 0#16⟩ }) ∧
  (∀ s : State, ∃ t q, exec (.sinit 0#16) s = .next t ∧
    t = { s with search := some q, rsp := some ⟨.ok, 0x0400#16⟩ } ∧
    (∀ k, k < 1024 → q.cand.getLsbD k = true) ∧ q.count = 1024#11 ∧ q.nrounds = 0#7 ∧ (∀ i, rcntAt q i = none) ∧
    (statusWord t).extractLsb' 1 3 = 0b111 ∧ memRead t 0x02#8 = .ok 0x0400#16 ∧ memRead t 0x03#8 = .ok 0x0000#16 ∧
    (∀ i, i < 64 → memRead t (BitVec.ofNat 8 (0x40 + i)) = .error .errBadAddr) ∧
    (∀ w, w < 64 → memRead t (BitVec.ofNat 8 (0x80 + w)) = .ok 0xFFFF#16))

/-- Stated [R80]: SPAIR, complete: its word, its refusals in order, each changing nothing, and a round: every candidate
is kept exactly when its key encrypts `pt` to `ct`, COUNT is the number kept, RCNT[NROUNDS] records it, NROUNDS
advances, all else is as before, and a pair that every candidate satisfies leaves CAND unchanged; and the survivors of
the worked example. `NROUNDS < RCNT_DEPTH` is what the last refusal leaves in a state of the invariant RoundsBounded. -/
def Obligations.SpairPerformsRound : Prop :=
  (∀ pt ct, (encode (.spair pt ct)).toNat = 0x50000 + 256 * val pt + val ct) ∧
  (∀ (pt ct : Block) (s : State), s.search = none →
    exec (.spair pt ct) s = .next { s with rsp := some ⟨.errNoSearch, 0#16⟩ }) ∧
  (∀ (pt ct : Block) (s : State) (q : Search), s.search = some q → q.count = 1#11 →
    exec (.spair pt ct) s = .next { s with rsp := some ⟨.doneNotConsumed, 0#16⟩ }) ∧
  (∀ (pt ct : Block) (s : State) (q : Search), s.search = some q → q.count ≠ 1#11 →
    q.nrounds.toNat = Config.rcntDepth →
    exec (.spair pt ct) s = .next { s with rsp := some ⟨.errRcntFull, 0#16⟩ }) ∧
  (∀ (pt ct : Block) (s : State) (q : Search), s.search = some q → q.count ≠ 1#11 →
    q.nrounds.toNat < Config.rcntDepth → ∃ q' : Search,
      exec (.spair pt ct) s =
        .next { s with search := some q', rsp := some ⟨.ok, BitVec.ofNat 16 q'.count.toNat⟩ } ∧
      (∀ k, k < 1024 → q'.cand.getLsbD k = (q.cand.getLsbD k && (encryptWith (seq 10 k) pt == ct))) ∧
      q'.count.toNat = candCount q'.cand ∧ q'.nrounds.toNat = q.nrounds.toNat + 1 ∧
      rcntAt q' q.nrounds.toNat = some q'.count ∧ (∀ i, i ≠ q.nrounds.toNat → rcntAt q' i = rcntAt q i) ∧
      ((∀ k, k < 1024 → q.cand.getLsbD k = true → encryptWith (seq 10 k) pt = ct) → q'.cand = q.cand)) ∧
  (∀ k, k < 1024 → (encryptWith (seq 10 k) 0b10010111 = 0b00111000 ↔ k ∈ [0x1CA, 0x282, 0x2CA]))

/-- Stated [R82]: a SPAIR at COUNT = 1 answers DONE_NOT_CONSUMED and changes nothing, whatever the pair, and no command
answers so at any other COUNT. -/
def Obligations.EarlyExitAtExactlyOne : Prop :=
  (∀ (pt ct : Block) (s : State) (q : Search), s.search = some q → q.count = 1#11 →
    exec (.spair pt ct) s = .next { s with rsp := some ⟨.doneNotConsumed, 0x0000#16⟩ }) ∧
  (∀ (i : Instr) (s t : State) (d : DataWord), exec i s = .next t → t.rsp = some ⟨.doneNotConsumed, d⟩ →
    (∃ pt ct, i = .spair pt ct) ∧ ∃ q, s.search = some q ∧ q.count = 1#11)

/-- Stated [R83]: a SPAIR at COUNT = 0 is performed: it answers OK with 0x0000, records 0 and advances NROUNDS; and no
command but SINIT makes an empty set hold a key again. -/
def Obligations.EmptySetStillConsumes : Prop :=
  (∀ (pt ct : Block) (s : State) (q : Search), s.search = some q → q.cand = 0#1024 → q.count = 0#11 →
    q.nrounds.toNat < Config.rcntDepth → ∃ q' : Search,
      exec (.spair pt ct) s = .next { s with search := some q', rsp := some ⟨.ok, 0x0000#16⟩ } ∧
      q'.cand = 0#1024 ∧ q'.count = 0#11 ∧ rcntAt q' q.nrounds.toNat = some 0#11 ∧
      q'.nrounds.toNat = q.nrounds.toNat + 1) ∧
  (∀ (i : Instr) (s t : State) (q : Search), exec i s = .next t → s.search = some q → q.cand = 0#1024 →
    (∀ rsv, i ≠ .sinit rsv) → ∃ q', t.search = some q' ∧ q'.cand = 0#1024)

/-- No command but SINIT ever adds a candidate, and COUNT never rises (44_key_search.md section 3, "Monotonicity", which
the spec marks as its own inference). CountExact is an invariant of the model. -/
def Obligations.CandidatesNeverGrow : Prop :=
  ∀ (i : Instr) (s t : State) (q q' : Search), CountExact s → exec i s = .next t → (∀ rsv, i ≠ .sinit rsv) →
    s.search = some q → t.search = some q' →
    (∀ k, q'.cand.getLsbD k = true → q.cand.getLsbD k = true) ∧ q'.count.toNat ≤ q.count.toNat

/-- Stated [R77]: the commands of a search, SINIT and one SPAIR per pair, issued from any state, compute `recoverKey`:
CAND is its remaining keys and RCNT its per-round counts, up to RCNT_DEPTH rounds; and `recoverKey` filters in input
order, records each count, and stops at exactly one. The commands are those of RECOVER with every pair issued, one of the
two forms 30_encoding.md R41 gives (log 16). -/
def Obligations.SearchComputesRecoverKey : Prop :=
  (∀ (pairs : List KnownPair) (s : State), (recoverKey pairs).2.length ≤ Config.rcntDepth →
    s.inputs = (recoverExpansion pairs).map (fun i => .cmd (encode i)) →
    ∃ t q, core.run (pairs.length + 1) s = .next t ∧ t.search = some q ∧ t.cipher = s.cipher ∧
      q.cand = (recoverKey pairs).1 ∧ q.nrounds.toNat = (recoverKey pairs).2.length ∧
      ∀ i, rcntAt q i = ((recoverKey pairs).2[i]?).map (BitVec.ofNat 11)) ∧
  recoverKey [] = (BitVec.allOnes 1024, []) ∧
  (∀ (C : CandMap) (pt ct : Block) (rest : List KnownPair), candCount (filterCandidates C pt ct) = 1 →
    recoverFrom C ((pt, ct) :: rest) = (filterCandidates C pt ct, [1])) ∧
  (∀ (C : CandMap) (pt ct : Block) (rest : List KnownPair), candCount (filterCandidates C pt ct) ≠ 1 →
    recoverFrom C ((pt, ct) :: rest) =
      ((recoverFrom (filterCandidates C pt ct) rest).1,
        candCount (filterCandidates C pt ct) :: (recoverFrom (filterCandidates C pt ct) rest).2))

/-- Pair order: where every pair is consumed the final set is the set of keys that satisfy every pair; where all pairs
are consistent with one key, that key survives and the final set is the same in every order (44_key_search.md section
3, "Pair order" (b) and (c), which the spec marks as its own inference). -/
def Obligations.ConsistentPairsInAnyOrder : Prop :=
  (∀ (pairs : List KnownPair), (recoverKey pairs).2.length = pairs.length → ∀ k, k < 1024 →
    ((recoverKey pairs).1.getLsbD k = true ↔ ∀ p ∈ pairs, encryptWith (seq 10 k) p.1 = p.2)) ∧
  (∀ (key : Key) (pairs pairs' : List KnownPair), pairs.Perm pairs' → (∀ p ∈ pairs, encryptWith key p.1 = p.2) →
    (recoverKey pairs).1.getLsbD (val key) = true ∧ (recoverKey pairs).1 = (recoverKey pairs').1)

/-! ## State access -/

/-- Stated [R87]: RD, complete: its word, the reserved bits, and the answer at every address. A read of RCNT[i] below
NROUNDS is answered with the entry's value, which the invariant RoundsRecorded says it has. -/
def Obligations.RdAnswersTheMap : Prop :=
  (∀ addr, (encode (.rd 0#8 addr)).toNat = 0x60000 + val addr) ∧
  (∀ (rsv : BitVec 8) (addr : Addr) (s : State), rsv ≠ 0#8 →
    exec (.rd rsv addr) s = .next { s with rsp := some ⟨.errInvalidLength, 0#16⟩ }) ∧
  (∀ s : State, exec (.rd 0#8 0x00#8) s = .next { s with rsp := some ⟨.ok, statusWord s⟩ }) ∧
  (∀ s : State, s.cipher = none → exec (.rd 0#8 0x01#8) s = .next { s with rsp := some ⟨.errNoKey, 0#16⟩ }) ∧
  (∀ (s : State) (k1 k2 : Subkey), s.cipher = some ⟨k1, k2⟩ →
    exec (.rd 0#8 0x01#8) s = .next { s with rsp := some ⟨.ok, BitVec.ofNat 16 (val k1 * 256 + val k2)⟩ }) ∧
  (∀ (addr : Addr) (s : State), s.search = none →
    (2 ≤ addr.toNat ∧ addr.toNat ≤ 4 ∨ 0x40 ≤ addr.toNat ∧ addr.toNat < 0xC0) →
    exec (.rd 0#8 addr) s = .next { s with rsp := some ⟨.errNoSearch, 0#16⟩ }) ∧
  (∀ (s : State) (q : Search), s.search = some q →
    exec (.rd 0#8 0x02#8) s = .next { s with rsp := some ⟨.ok, BitVec.ofNat 16 q.count.toNat⟩ } ∧
    exec (.rd 0#8 0x03#8) s = .next { s with rsp := some ⟨.ok, BitVec.ofNat 16 q.nrounds.toNat⟩ } ∧
    exec (.rd 0#8 0x04#8) s = .next { s with rsp := some ⟨.ok, skeyWord q⟩ } ∧
    (∀ i, i < 64 → q.nrounds.toNat ≤ i →
      exec (.rd 0#8 (BitVec.ofNat 8 (0x40 + i))) s = .next { s with rsp := some ⟨.errBadAddr, 0#16⟩ }) ∧
    (∀ i n, i < 64 → i < q.nrounds.toNat → rcntAt q i = some n →
      exec (.rd 0#8 (BitVec.ofNat 8 (0x40 + i))) s =
        .next { s with rsp := some ⟨.ok, BitVec.ofNat 16 n.toNat⟩ }) ∧
    (∀ w, w < 64 → ∃ d : DataWord,
      exec (.rd 0#8 (BitVec.ofNat 8 (0x80 + w))) s = .next { s with rsp := some ⟨.ok, d⟩ } ∧
      ∀ b, b < 16 → d.getLsbD b = q.cand.getLsbD (16 * w + b))) ∧
  (∀ (addr : Addr) (s : State), (5 ≤ addr.toNat ∧ addr.toNat < 0x40 ∨ 0xC0 ≤ addr.toNat) →
    exec (.rd 0#8 addr) s = .next { s with rsp := some ⟨.errBadAddr, 0#16⟩ })

/-- Stated [R88]: RD writes no state element, any other command does and answers the same after it as before it, and a
second RD of an address answers as the first. -/
def Obligations.RdChangesNothing : Prop :=
  ∀ (rsv : BitVec 8) (addr : Addr) (s t : State), exec (.rd rsv addr) s = .next t →
    t.cipher = s.cipher ∧ t.search = s.search ∧ t.inputs = s.inputs ∧
    (∀ i : Instr, exec i t = exec i s) ∧ exec (.rd rsv addr) t = .next t

/-- Stated [R17]: STATUS, field by field, and RD STATUS returns it; it is computed and nothing writes it. -/
def Obligations.StatusFields : Prop :=
  ∀ s : State, exec (.rd 0#8 0x00#8) s = .next { s with rsp := some ⟨.ok, statusWord s⟩ } ∧
    (statusWord s).getLsbD 0 = s.cipher.isSome ∧ (statusWord s).getLsbD 1 = s.search.isSome ∧
    (∀ b, 4 ≤ b → (statusWord s).getLsbD b = false) ∧
    (s.search = none → (statusWord s).extractLsb' 2 2 = 0b00) ∧
    (∀ q, s.search = some q →
      (q.count.toNat = 1 → (statusWord s).extractLsb' 2 2 = 0b01) ∧
      (q.count.toNat = 0 → (statusWord s).extractLsb' 2 2 = 0b10) ∧
      (2 ≤ q.count.toNat → (statusWord s).extractLsb' 2 2 = 0b11))

/-- Stated [R19]: SKEY: the none flag when COUNT = 0, otherwise the smallest candidate; with one candidate, that key.
CountExact is an invariant of the model. -/
def Obligations.SkeyIsSmallestCandidate : Prop :=
  ∀ (s : State) (q : Search), CountExact s → s.search = some q →
    (q.count = 0#11 → skeyWord q = 0x8000#16) ∧
    (q.count ≠ 0#11 → ∃ k, k < 1024 ∧ q.cand.getLsbD k = true ∧ (∀ j, j < k → q.cand.getLsbD j = false) ∧
      skeyWord q = BitVec.ofNat 16 k) ∧
    (q.count = 1#11 → ∀ k, q.cand.getLsbD k = true → skeyWord q = BitVec.ofNat 16 k)

/-- The candidate of key value `k` is read at bit `k mod 16` of the word at address `0x80 + k div 16`, and `0x282` at
mask `0x0004` of `0xA8` (20_memory.md section 2). -/
def Obligations.CandidateBitOfKey : Prop :=
  (∀ (s : State) (q : Search) (k : Nat), s.search = some q → k < 1024 →
    ∃ d, memRead s (BitVec.ofNat 8 (0x80 + k / 16)) = .ok d ∧ d.getLsbD (k % 16) = q.cand.getLsbD k) ∧
  0x80 + 0x282 / 16 = 0xA8 ∧ 2 ^ (0x282 % 16) = 0x0004

/-- The address map is one to one: each mapped address has one name and each name one address, and 0x05 to 0x3F and
0xC0 to 0xFF have none (20_memory.md section 1). -/
def Obligations.AddressMapOneToOne : Prop :=
  (∀ name : WordName, wordName (wordAddr name) = some name) ∧
  (∀ (a : Addr) (name : WordName), wordName a = some name → wordAddr name = a) ∧
  (∀ a : Addr, wordName a = none ↔ (5 ≤ a.toNat ∧ a.toNat < 0x40 ∨ 0xC0 ≤ a.toNat))

/-! ## Responses and refusals -/

/-- Stated [R39]: the eight status codes; none of 0x8 to 0xF is ever produced; and the response word is the code above
the data. -/
def Obligations.StatusCodes : Prop :=
  statusCode .ok = 0x0 ∧ statusCode .errIllegalCmd = 0x1 ∧ statusCode .errInvalidLength = 0x2 ∧
  statusCode .errNoKey = 0x3 ∧ statusCode .errNoSearch = 0x4 ∧ statusCode .doneNotConsumed = 0x5 ∧
  statusCode .errRcntFull = 0x6 ∧ statusCode .errBadAddr = 0x7 ∧
  (∀ r : Response, (responseWord r).toNat = (statusCode r.status).toNat * 65536 + r.data.toNat ∧
    (responseWord r).toNat < 8 * 65536)

/-- Every command, accepted or refused, produces exactly one response and leaves the host's further transactions alone,
and every step has a next state (30_encoding.md section 3; 70_reset_and_hazards.md section 3, "Termination"). One
transaction a step, and the empty response channel of a step without a command, are the model's choice (log 5, 6). -/
def Obligations.EveryCommandAnswered : Prop :=
  (∀ (i : Instr) (s : State), ∃ t r, exec i s = .next t ∧ t.rsp = some r ∧ t.inputs = s.inputs) ∧
  (∀ s : State, ∃ t, step s = .next t ∧ t.inputs = s.inputs.tail ∧
    (t.rsp.isSome = true ↔ ∃ w rest, s.inputs = .cmd w :: rest))

/-- Stated [R89]: a refused command answers data 0x0000, changes no state element and leaves no trace: the next command
does and answers as if the refused one had not been issued. -/
def Obligations.RefusalLeavesNoTrace : Prop :=
  ∀ (s t : State) (w : CmdWord) (rest : List HostInput) (r : Response), s.inputs = .cmd w :: rest →
    step s = .next t → t.rsp = some r → r.status ≠ .ok →
    r.data = 0x0000#16 ∧ t.cipher = s.cipher ∧ t.search = s.search ∧ t.inputs = rest ∧
    ∀ i : Instr, exec i t = exec i { s with inputs := rest }

/-- Stated [R90, R93]: the status of every command word in every state, from the bits of the word: the causes, in the
fixed order of the checks; and a status other than OK comes with data 0x0000 and nothing recorded. RoundsRecorded is
an invariant of the model. -/
def Obligations.ChecksInFixedOrder : Prop :=
  ∀ (s : State) (w : CmdWord) (rest : List HostInput), RoundsRecorded s → s.inputs = .cmd w :: rest →
    let op := w.toNat / 65536
    let arg := w.toNat % 65536
    let count : Option Nat := s.search.map fun q => q.count.toNat
    let nrounds : Option Nat := s.search.map fun q => q.nrounds.toNat
    let status : Status :=
      if op = 0 ∨ 7 ≤ op then .errIllegalCmd
      else if (op = 1 ∧ 1024 ≤ arg) ∨ ((op = 2 ∨ op = 3 ∨ op = 6) ∧ 256 ≤ arg) ∨ (op = 4 ∧ arg ≠ 0) then
        .errInvalidLength
      else if op = 6 ∧ (5 ≤ arg ∧ arg < 0x40 ∨ 0xC0 ≤ arg) then .errBadAddr
      else if (op = 2 ∨ op = 3 ∨ (op = 6 ∧ arg = 1)) ∧ s.keyv = false then .errNoKey
      else if (op = 5 ∨ (op = 6 ∧ 2 ≤ arg)) ∧ s.sact = false then .errNoSearch
      else if op = 5 ∧ count = some 1 then .doneNotConsumed
      else if op = 5 ∧ nrounds = some Config.rcntDepth then .errRcntFull
      else if op = 6 ∧ 0x40 ≤ arg ∧ arg < 0x80 ∧ nrounds.getD 0 ≤ arg - 0x40 then .errBadAddr
      else .ok
    ∃ t data, step s = .next t ∧ t.rsp = some ⟨status, data⟩ ∧
      (status ≠ .ok → data = 0x0000#16 ∧ t = { s with inputs := rest, rsp := some ⟨status, 0x0000#16⟩ })

/-! ## Frames, isolation, invariants -/

/-- Frame of ENC, DEC and RD, every form: nothing but the response changes, and every word of the read space reads as
before (43_cipher_engine.md section 2; 45_state_access.md). -/
def Obligations.FrameOfEncDecRd : Prop :=
  ∀ (i : Instr) (s t : State), ((∃ rsv b, i = .enc rsv b) ∨ (∃ rsv b, i = .dec rsv b) ∨ (∃ rsv a, i = .rd rsv a)) →
    exec i s = .next t → t.cipher = s.cipher ∧ t.search = s.search ∧ t.inputs = s.inputs ∧
      ∀ a, memRead t a = memRead s a

/-- Frame of LDKEY: the search state, the host's transactions, every STATUS bit but KEYV, and every word of the read
space but STATUS and KEYS are as before (41_key_schedule.md section 2; 10_state.md section 3). -/
def Obligations.FrameOfLdkey : Prop :=
  ∀ (rsv : BitVec 6) (key : Key) (s t : State), exec (.ldkey rsv key) s = .next t →
    t.search = s.search ∧ t.inputs = s.inputs ∧
    (∀ b, b ≠ 0 → (statusWord t).getLsbD b = (statusWord s).getLsbD b) ∧
    (∀ a : Addr, a ≠ 0x00#8 → a ≠ 0x01#8 → memRead t a = memRead s a)

/-- Frame of SINIT and SPAIR: the cipher instance, the host's transactions, STATUS.KEYV and STATUS[15:4], the KEYS word
and the unmapped addresses are as before; and SPAIR leaves every RCNT entry but RCNT[NROUNDS] as it was, so that every
RCNT word recorded before reads as before (44_key_search.md section 2; 10_state.md section 3). -/
def Obligations.FrameOfSinitSpair : Prop :=
  (∀ (i : Instr) (s t : State), ((∃ rsv, i = .sinit rsv) ∨ (∃ pt ct, i = .spair pt ct)) → exec i s = .next t →
    t.cipher = s.cipher ∧ t.inputs = s.inputs ∧
    (∀ b, (b = 0 ∨ 4 ≤ b) → (statusWord t).getLsbD b = (statusWord s).getLsbD b) ∧
    memRead t 0x01#8 = memRead s 0x01#8 ∧ (∀ a, wordName a = none → memRead t a = memRead s a)) ∧
  (∀ (pt ct : Block) (s t : State) (q : Search), exec (.spair pt ct) s = .next t → s.search = some q →
    ∃ q', t.search = some q' ∧ (∀ i, i ≠ q.nrounds.toNat → rcntAt q' i = rcntAt q i) ∧
      (RoundsBounded s → ∀ i, i < q.nrounds.toNat →
        memRead t (BitVec.ofNat 8 (0x40 + i)) = memRead s (BitVec.ofNat 8 (0x40 + i))))

/-- Stated [R20]: the cipher commands neither read nor write the search state, the search commands neither read nor write
KEYV, K1, K2: on two states that agree on their own half they answer the same and leave the same. -/
def Obligations.CipherAndSearchIndependent : Prop :=
  (∀ (i : Instr) (s s' t t' : State),
    ((∃ rsv k, i = .ldkey rsv k) ∨ (∃ rsv b, i = .enc rsv b) ∨ (∃ rsv b, i = .dec rsv b)) →
    s.cipher = s'.cipher → exec i s = .next t → exec i s' = .next t' →
    t.search = s.search ∧ t.cipher = t'.cipher ∧ t.rsp = t'.rsp) ∧
  (∀ (i : Instr) (s s' t t' : State), ((∃ rsv, i = .sinit rsv) ∨ (∃ pt ct, i = .spair pt ct)) →
    s.search = s'.search → exec i s = .next t → exec i s' = .next t' →
    t.cipher = s.cipher ∧ t.search = t'.search ∧ t.rsp = t'.rsp)

/-- Stated [R28]: no write path through an address: K1, K2 and KEYV change only by LDKEY and reset, the search state only
by SINIT, SPAIR and reset; LDKEY leaves the subkeys of its key, SINIT a candidate set of all keys, and SPAIR adds no
candidate. -/
def Obligations.OnlyNamedCommandsWrite : Prop :=
  ∀ s t : State, step s = .next t →
    (t.cipher ≠ s.cipher → (∃ p rest, s.inputs = .rst p :: rest) ∨
      ∃ w rest key, s.inputs = .cmd w :: rest ∧ decode w = .ok (.ldkey 0#6 key) ∧
        t.cipher = some ⟨(deriveSubkeys key).1, (deriveSubkeys key).2⟩) ∧
    (t.search ≠ s.search → (∃ p rest, s.inputs = .rst p :: rest) ∨
      ∃ w rest q', s.inputs = .cmd w :: rest ∧ t.search = some q' ∧
        ((decode w = .ok (.sinit 0#16) ∧ ∀ k, k < 1024 → q'.cand.getLsbD k = true) ∨
          ∃ pt ct q, decode w = .ok (.spair pt ct) ∧ s.search = some q ∧
            ∀ k, q'.cand.getLsbD k = true → q.cand.getLsbD k = true))

/-- The response and the next state of a command are functions of the state of 10_state.md and the command alone:
neither an earlier response nor what the host does next plays a part (00_scope.md section 4, "Determinism"). -/
def Obligations.OutcomeDependsOnStateAlone : Prop :=
  ∀ (i : Instr) (s s' t t' : State), s.cipher = s'.cipher → s.search = s'.search →
    exec i s = .next t → exec i s' = .next t' →
    t.cipher = t'.cipher ∧ t.search = t'.search ∧ t.rsp = t'.rsp

/-- The invariants hold right after reset (10_state.md sections 2, 3 and 5). -/
def Obligations.InvariantsAtReset : Prop := Inv State.reset

/-- Every step keeps the invariants, from every state that has them: the subkeys are some key's, COUNT is the number of
candidates, NROUNDS is at most RCNT_DEPTH, exactly the RCNT entries below NROUNDS hold a value, the counts never rise
and start at most at 1024, COUNT is the last count recorded (1024 before the first), and a refusal carries no data
(10_state.md sections 2 and 3; 30_encoding.md section 3). That an entry without a value is an absent one is the model's
choice (log 4). -/
def Obligations.StepKeepsInvariants : Prop := ∀ s t : State, Inv s → step s = .next t → Inv t
end

