-- ==== Sys2Proof/Laws/BitSeq.lean ====
section
/-! SUPPORT. Positions of the sequence operations (00_scope.md R6; 40_bit_utilities.md R50, R51), and that a sequence is
its positions. -/

namespace Sys2Proof.Machine

/-- A sequence is determined by its positions. -/
theorem eq_of_pos {n : Nat} {a b : BitVec n} (h : ∀ i, 1 ≤ i → i ≤ n → pos a i = pos b i) : a = b := by
  refine BitVec.eq_of_getLsbD_eq fun j hj => ?_
  have := h (n - j) (by omega) (by omega)
  rwa [pos, pos, Nat.sub_sub_self hj.le] at this

/-- The bit of `positionsValue n f` for position `i` is `f i`. -/
theorem testBit_positionsValue (n : Nat) (f : Nat → Bool) (j : Nat) :
    (positionsValue n f).testBit j = (decide (j < n) && f (n - j)) := by
  induction n generalizing j with
  | zero => simp [positionsValue]
  | succ n ih =>
    cases j with
    | zero => cases h : f (n + 1) <;> simp [positionsValue, Nat.testBit_zero, Nat.add_mod, h]
    | succ j =>
      have hdiv : positionsValue (n + 1) f / 2 = positionsValue n f := by
        have := Bool.toNat_lt (f (n + 1))
        simp only [positionsValue]
        omega
      rw [Nat.testBit_add_one, hdiv, ih]
      simp

/-- The position law of `ofPositions`. -/
theorem pos_ofPositions {n i : Nat} (f : Nat → Bool) (h1 : 1 ≤ i) (hn : i ≤ n) : pos (ofPositions n f) i = f i := by
  have h : n - i < n := by omega
  rw [pos, ofPositions, BitVec.getLsbD_ofNat, testBit_positionsValue]
  simp [h, Nat.sub_sub_self hn]

/-- `(a xor b){i}` (40_bit_utilities.md R50). -/
theorem pos_xor {n : Nat} (a b : BitVec n) (i : Nat) : pos (a ^^^ b) i = (pos a i ^^ pos b i) := by
  simp [pos]

/-- The left operand of `++` has the first positions (40_bit_utilities.md R51). -/
theorem pos_append_left {m n i : Nat} (a : BitVec m) (b : BitVec n) (h : i ≤ m) :
    pos (a ++ b) i = pos a i := by
  have h1 : ¬ (m + n - i < n) := by omega
  have h2 : m + n - i - n = m - i := by omega
  simp [pos, BitVec.getLsbD_append, h1, h2]

/-- The right operand of `++` has the positions after them (40_bit_utilities.md R51). -/
theorem pos_append_right {m n i : Nat} (a : BitVec m) (b : BitVec n) (h : m < i) (hi : i ≤ m + n) :
    pos (a ++ b) i = pos b (i - m) := by
  have h1 : m + n - i < n := by omega
  have h2 : m + n - i = n - (i - m) := by omega
  rw [pos, BitVec.getLsbD_append, if_pos h1, h2, pos]

@[simp] theorem leftHalf_append (a b : Half) : leftHalf (a ++ b) = a := by
  refine BitVec.eq_of_getLsbD_eq fun j hj => ?_
  rw [leftHalf, BitVec.getLsbD_extractLsb', BitVec.getLsbD_append]
  simp [hj]

@[simp] theorem rightHalf_append (a b : Half) : rightHalf (a ++ b) = b := by
  refine BitVec.eq_of_getLsbD_eq fun j hj => ?_
  rw [rightHalf, BitVec.getLsbD_extractLsb', BitVec.getLsbD_append]
  simp [hj]

@[simp] theorem halves_append (b : Block) : leftHalf b ++ rightHalf b = b := by
  refine BitVec.eq_of_getLsbD_eq fun j hj => ?_
  simp only [leftHalf, rightHalf, BitVec.getLsbD_append, BitVec.getLsbD_extractLsb']
  split
  · simp_all
  · rename_i h
    simp at h
    have h4 : j - 4 < 4 := by omega
    simp [h4, Nat.add_sub_cancel' h]

end Sys2Proof.Machine
end

