-- ==== Sys2Proof/Laws/ReadSpace.lean ====
section
/-! SUPPORT. What a read of the read space can answer. -/

namespace Sys2Proof.Machine

theorem readSearch_none {s : State} (h : s.search = none) (read : Search → Except Status DataWord) :
    readSearch s read = .error .errNoSearch := by
  simp [readSearch, h]

theorem readSearch_some {s : State} {q : Search} (h : s.search = some q) (read : Search → Except Status DataWord) :
    readSearch s read = read q := by
  simp [readSearch, h]

theorem readKeys_none {s : State} (h : s.cipher = none) : readKeys s = .error .errNoKey := by
  simp [readKeys, h]

theorem readKeys_some {s : State} {c : CipherInstance} (h : s.cipher = some c) : readKeys s = .ok (keysWord c) := by
  simp [readKeys, h]

/-- A read of a mapped address reads the named word. -/
theorem memRead_of_wordName {a : Addr} {name : WordName} (h : wordName a = some name) (s : State) :
    memRead s a = readWord s name := by
  simp [memRead, h]

/-- A read of an unmapped address has no value (20_memory.md R23). -/
theorem memRead_of_unmapped {a : Addr} (h : wordName a = none) (s : State) : memRead s a = .error .errBadAddr := by
  simp [memRead, h]

/-- A read never fails with the status OK. -/
theorem memRead_error_ne_ok (s : State) (a : Addr) {st : Status} (h : memRead s a = .error st) : st ≠ .ok := by
  unfold memRead at h
  split at h
  · cases h; decide
  · rename_i name _
    cases hs : s.search <;> cases hc : s.cipher <;> cases name <;>
      simp [readWord, readSearch, readKeys, readRcnt, hs, hc] at h <;>
      (try (subst h; decide)) <;>
      (split at h <;> [skip; split at h] <;> simp_all)
    all_goals (subst h; decide)

/-- A read depends on the cipher instance and the search state alone. -/
theorem memRead_congr {s t : State} (hc : t.cipher = s.cipher) (hs : t.search = s.search) (a : Addr) :
    memRead t a = memRead s a := by
  unfold memRead
  split
  · rfl
  · rename_i name _
    cases name <;> simp [readWord, readKeys, readSearch, statusWord, State.keyv, State.sact, hc, hs]

end Sys2Proof.Machine
end

