-- ==== Sys2Proof/Laws/State.lean ====
section
/-! SUPPORT. One lemma per field per update of the state, true by rfl, so that no proof unfolds a record update. -/

namespace Sys2Proof.Machine

@[simp] theorem respond_cipher (st : Status) (d : DataWord) (s : State) : (respond st d s).cipher = s.cipher := rfl
@[simp] theorem respond_search (st : Status) (d : DataWord) (s : State) : (respond st d s).search = s.search := rfl
@[simp] theorem respond_inputs (st : Status) (d : DataWord) (s : State) : (respond st d s).inputs = s.inputs := rfl
@[simp] theorem respond_rsp (st : Status) (d : DataWord) (s : State) : (respond st d s).rsp = some ⟨st, d⟩ := rfl

@[simp] theorem refuse_cipher (st : Status) (s : State) : (refuse st s).cipher = s.cipher := rfl
@[simp] theorem refuse_search (st : Status) (s : State) : (refuse st s).search = s.search := rfl
@[simp] theorem refuse_inputs (st : Status) (s : State) : (refuse st s).inputs = s.inputs := rfl
@[simp] theorem refuse_rsp (st : Status) (s : State) : (refuse st s).rsp = some ⟨st, 0#16⟩ := rfl

@[simp] theorem setCipher_cipher (a b : Subkey) (s : State) : (setCipher a b s).cipher = some ⟨a, b⟩ := rfl
@[simp] theorem setCipher_search (a b : Subkey) (s : State) : (setCipher a b s).search = s.search := rfl
@[simp] theorem setCipher_inputs (a b : Subkey) (s : State) : (setCipher a b s).inputs = s.inputs := rfl
@[simp] theorem setCipher_rsp (a b : Subkey) (s : State) : (setCipher a b s).rsp = s.rsp := rfl

@[simp] theorem setSearch_cipher (q : Search) (s : State) : (setSearch q s).cipher = s.cipher := rfl
@[simp] theorem setSearch_search (q : Search) (s : State) : (setSearch q s).search = some q := rfl
@[simp] theorem setSearch_inputs (q : Search) (s : State) : (setSearch q s).inputs = s.inputs := rfl
@[simp] theorem setSearch_rsp (q : Search) (s : State) : (setSearch q s).rsp = s.rsp := rfl

@[simp] theorem applyReset_cipher (s : State) : (applyReset s).cipher = none := rfl
@[simp] theorem applyReset_search (s : State) : (applyReset s).search = none := rfl
@[simp] theorem applyReset_inputs (s : State) : (applyReset s).inputs = s.inputs := rfl
@[simp] theorem applyReset_rsp (s : State) : (applyReset s).rsp = none := rfl

@[simp] theorem noCommand_cipher (s : State) : (noCommand s).cipher = s.cipher := rfl
@[simp] theorem noCommand_search (s : State) : (noCommand s).search = s.search := rfl
@[simp] theorem noCommand_inputs (s : State) : (noCommand s).inputs = s.inputs := rfl
@[simp] theorem noCommand_rsp (s : State) : (noCommand s).rsp = none := rfl

@[simp] theorem presentWord_cipher (w : CmdWord) (s : State) : (presentWord w s).cipher = s.cipher := rfl
@[simp] theorem presentWord_search (w : CmdWord) (s : State) : (presentWord w s).search = s.search := rfl
@[simp] theorem presentWord_inputs (w : CmdWord) (s : State) : (presentWord w s).inputs = .cmd w :: s.inputs := rfl
@[simp] theorem presentWord_rsp (w : CmdWord) (s : State) : (presentWord w s).rsp = s.rsp := rfl

@[simp] theorem reset_cipher : State.reset.cipher = none := rfl
@[simp] theorem reset_search : State.reset.search = none := rfl
@[simp] theorem reset_inputs : State.reset.inputs = [] := rfl
@[simp] theorem reset_rsp : State.reset.rsp = none := rfl

@[simp] theorem recordRound_cand (c : CandMap) (q : Search) : (recordRound c q).cand = c := rfl
@[simp] theorem recordRound_count (c : CandMap) (q : Search) :
    (recordRound c q).count = BitVec.ofNat 11 (candCount c) := rfl
@[simp] theorem recordRound_nrounds (c : CandMap) (q : Search) : (recordRound c q).nrounds = q.nrounds + 1#7 := rfl

@[simp] theorem freshSearch_cand : freshSearch.cand = allCandidates := rfl
@[simp] theorem freshSearch_count : freshSearch.count = 1024#11 := rfl
@[simp] theorem freshSearch_nrounds : freshSearch.nrounds = 0#7 := rfl

end Sys2Proof.Machine
end

