-- ==== Sys2Proof/Laws/Commands.lean ====
section
/-! SUPPORT. What each shared operation of a command can do, said once, and what a command and a step can do. -/

namespace Sys2Proof.Machine

@[simp] theorem withReserved_zero {n : Nat} (s : State) (run : Result) : withReserved 0#n s run = run := by
  simp [withReserved]

theorem withReserved_ne {n : Nat} {rsv : BitVec n} (h : rsv ≠ 0#n) (s : State) (run : Result) :
    withReserved rsv s run = .next (refuse .errInvalidLength s) := by
  simp [withReserved, h]

theorem withCipher_none {s : State} (h : s.cipher = none) (run : CipherInstance → Result) :
    withCipher s run = .next (refuse .errNoKey s) := by
  simp [withCipher, h]

theorem withCipher_some {s : State} {c : CipherInstance} (h : s.cipher = some c) (run : CipherInstance → Result) :
    withCipher s run = run c := by
  simp [withCipher, h]

theorem withSearch_none {s : State} (h : s.search = none) (run : Search → Result) :
    withSearch s run = .next (refuse .errNoSearch s) := by
  simp [withSearch, h]

theorem withSearch_some {s : State} {q : Search} (h : s.search = some q) (run : Search → Result) :
    withSearch s run = run q := by
  simp [withSearch, h]

/-- What a command can do: every command is answered, and its next state is a response and at most one write, of the
cipher instance by LDKEY, of the search state by SINIT or SPAIR. -/
theorem exec_cases (i : Instr) (s : State) :
    (∃ st, st ≠ .ok ∧ exec i s = .next (refuse st s)) ∨
    (∃ d, exec i s = .next (respond .ok d s) ∧
      ((∃ b c, i = .enc 0#8 b ∧ s.cipher = some c ∧ d = (encrypt c.k1 c.k2 b).setWidth 16) ∨
        (∃ b c, i = .dec 0#8 b ∧ s.cipher = some c ∧ d = (decrypt c.k1 c.k2 b).setWidth 16) ∨
        (∃ a, i = .rd 0#8 a ∧ memRead s a = .ok d))) ∨
    (∃ key, i = .ldkey 0#6 key ∧
      exec i s = .next (respond .ok ((deriveSubkeys key).1 ++ (deriveSubkeys key).2)
        (setCipher (deriveSubkeys key).1 (deriveSubkeys key).2 s))) ∨
    (i = .sinit 0#16 ∧ exec i s = .next (respond .ok 0x0400#16 (setSearch freshSearch s))) ∨
    (∃ pt ct q, i = .spair pt ct ∧ s.search = some q ∧ q.count ≠ 1#11 ∧ q.nrounds.toNat ≠ Config.rcntDepth ∧
      exec i s = .next (respond .ok ((searchRound pt ct q).count.setWidth 16) (setSearch (searchRound pt ct q) s))) := by
  have reserved : ∀ {n : Nat} (rsv : BitVec n) (run : Result), rsv = 0#n ∨
      ∃ st, st ≠ Status.ok ∧ withReserved rsv s run = .next (refuse st s) := fun {n} rsv run => by
    by_cases h : rsv = 0#n
    · exact .inl h
    · exact .inr ⟨_, by decide, withReserved_ne h s run⟩
  cases i with
  | ldkey rsv key =>
    rcases reserved rsv _ with rfl | h
    · exact .inr (.inr (.inl ⟨key, rfl, by simp [exec, execLdkey]⟩))
    · exact .inl h
  | enc rsv b =>
    rcases reserved rsv _ with rfl | h
    · cases hc : s.cipher with
      | none => exact .inl ⟨.errNoKey, by decide, by simp [exec, execEnc, withCipher_none hc]⟩
      | some c => exact .inr (.inl ⟨_, by simp [exec, execEnc, withCipher_some hc], .inl ⟨b, c, rfl, rfl, rfl⟩⟩)
    · exact .inl h
  | dec rsv b =>
    rcases reserved rsv _ with rfl | h
    · cases hc : s.cipher with
      | none => exact .inl ⟨.errNoKey, by decide, by simp [exec, execDec, withCipher_none hc]⟩
      | some c => exact .inr (.inl ⟨_, by simp [exec, execDec, withCipher_some hc], .inr (.inl ⟨b, c, rfl, rfl, rfl⟩)⟩)
    · exact .inl h
  | sinit rsv =>
    rcases reserved rsv _ with rfl | h
    · exact .inr (.inr (.inr (.inl ⟨rfl, by simp [exec, execSinit]⟩)))
    · exact .inl h
  | spair pt ct =>
    cases hs : s.search with
    | none => exact .inl ⟨.errNoSearch, by decide, by simp [exec, execSpair, spairAt, withSearch_none hs]⟩
    | some q =>
      by_cases h1 : q.count = 1#11
      · exact .inl ⟨.doneNotConsumed, by decide, by simp [exec, execSpair, spairAt, withSearch_some hs, h1]⟩
      · by_cases h2 : q.nrounds.toNat = Config.rcntDepth
        · exact .inl ⟨.errRcntFull, by decide, by simp [exec, execSpair, spairAt, withSearch_some hs, h1, h2]⟩
        · exact .inr (.inr (.inr (.inr ⟨pt, ct, q, rfl, rfl, h1, h2,
            by simp [exec, execSpair, spairAt, withSearch_some hs, h1, h2]⟩)))
  | rd rsv a =>
    rcases reserved rsv _ with rfl | h
    · cases hm : memRead s a with
      | ok d => exact .inr (.inl ⟨d, by simp [exec, execRd, hm], .inr (.inr ⟨a, rfl, hm⟩)⟩)
      | error st => exact .inl ⟨st, memRead_error_ne_ok s a hm, by simp [exec, execRd, hm]⟩
    · exact .inl h

/-- What a step can do, by the transaction at the head of the list. -/
theorem step_cases (s : State) :
    (s.inputs = [] ∧ step s = .next (noCommand s)) ∨
    (∃ w rest, s.inputs = .ignored w :: rest ∧ step s = .next (noCommand { s with inputs := rest })) ∨
    (∃ p rest, s.inputs = .rst p :: rest ∧ step s = .next (applyReset { s with inputs := rest })) ∨
    (∃ w rest i, s.inputs = .cmd w :: rest ∧ decode w = .ok i ∧ step s = exec i { s with inputs := rest }) ∨
    (∃ w rest e, s.inputs = .cmd w :: rest ∧ decode w = .error e ∧
      step s = .next (refuse .errIllegalCmd { s with inputs := rest })) := by
  cases h : s.inputs with
  | nil => exact .inl ⟨rfl, by simp [step, nextInput, h]⟩
  | cons x rest =>
    cases x with
    | ignored w => exact .inr (.inl ⟨w, rest, rfl, by simp [step, nextInput, h]⟩)
    | rst p => exact .inr (.inr (.inl ⟨p, rest, rfl, by simp [step, nextInput, h]⟩))
    | cmd w =>
      cases hd : decode w with
      | ok i => exact .inr (.inr (.inr (.inl ⟨w, rest, i, rfl, hd, by simp [step, nextInput, h, hd]⟩)))
      | error e => exact .inr (.inr (.inr (.inr ⟨w, rest, e, rfl, hd, by simp [step, nextInput, h, hd, refuseIllegal]⟩)))

end Sys2Proof.Machine
end

