-- ==== Sys2Proof/Laws/PerInstr.lean ====
section
/-! SUPPORT. Statements for all commands, one lemma per constructor: the `op` of each command's word (family OpSelects),
and that the reserved bits of the opcode table are the ones well-formedness requires to be zero (family ReservedBits). -/

namespace Sys2Proof.Laws

/-- The op field of a command's word is its opcode (30_encoding.md R32, R35). -/
def OpSelects.Statement (i : Instr) : Prop := opField (encode i) = opcode i

/-- A command is well formed exactly when its word has no reserved bit set (30_encoding.md R33, R34). -/
def ReservedBits.Statement (i : Instr) : Prop := i.wellFormed = true ↔ encode i &&& reservedMask i = 0

theorem opField_append (op : BitVec 4) (arg : BitVec 16) : opField (op ++ arg) = op := by
  refine BitVec.eq_of_getLsbD_eq fun j hj => ?_
  rw [opField, BitVec.getLsbD_extractLsb', BitVec.getLsbD_append]
  simp [hj]

theorem OpSelects.ldkey (rsv : BitVec 6) (key : Key) : Statement (.ldkey rsv key) := opField_append _ _
theorem OpSelects.enc (rsv : BitVec 8) (block : Block) : Statement (.enc rsv block) := opField_append _ _
theorem OpSelects.dec (rsv : BitVec 8) (block : Block) : Statement (.dec rsv block) := opField_append _ _
theorem OpSelects.sinit (rsv : BitVec 16) : Statement (.sinit rsv) := opField_append _ _
theorem OpSelects.spair (pt ct : Block) : Statement (.spair pt ct) := opField_append _ _
theorem OpSelects.rd (rsv : BitVec 8) (addr : Addr) : Statement (.rd rsv addr) := opField_append _ _

/-- Masking the reserved field of a word leaves it alone and clears the rest. -/
theorem masked_append {r l : Nat} (op : BitVec 4) (rsv : BitVec r) (lo : BitVec l) :
    (op ++ (rsv ++ lo)) &&& (0#4 ++ (BitVec.allOnes r ++ 0#l)) = 0#4 ++ (rsv ++ 0#l) := by
  simp [BitVec.and_append]

theorem append_eq_zero {r l : Nat} (rsv : BitVec r) : 0#4 ++ (rsv ++ 0#l) = 0#(4 + (r + l)) ↔ rsv = 0#r := by
  constructor
  · intro h
    refine BitVec.eq_of_getLsbD_eq fun j hj => ?_
    have := congrArg (fun v => v.getLsbD (l + j)) h
    simp only [BitVec.getLsbD_append, show l + j < r + l by omega, BitVec.getLsbD_zero] at this
    simpa using this
  · rintro rfl
    simp

/-- A reserved field is zero exactly when no bit of the mask over it is set in the word. -/
theorem reserved_iff {r l : Nat} (op : BitVec 4) (rsv : BitVec r) (lo : BitVec l) :
    (rsv == 0#r) = true ↔ (op ++ (rsv ++ lo)) &&& (0#4 ++ (BitVec.allOnes r ++ 0#l)) = 0#(4 + (r + l)) := by
  rw [masked_append, append_eq_zero, beq_iff_eq]

theorem ReservedBits.ldkey (rsv : BitVec 6) (key : Key) : Statement (.ldkey rsv key) := reserved_iff 0x1#4 rsv key
theorem ReservedBits.enc (rsv : BitVec 8) (block : Block) : Statement (.enc rsv block) := reserved_iff 0x2#4 rsv block
theorem ReservedBits.dec (rsv : BitVec 8) (block : Block) : Statement (.dec rsv block) := reserved_iff 0x3#4 rsv block
theorem ReservedBits.sinit (rsv : BitVec 16) : Statement (.sinit rsv) := by
  have h := reserved_iff 0x4#4 rsv 0#0
  rw [show rsv ++ 0#0 = rsv from BitVec.append_zero_width rsv 0#0] at h
  exact h
theorem ReservedBits.spair (pt ct : Block) : Statement (.spair pt ct) := by
  simp [Statement, Instr.wellFormed, reservedMask]
theorem ReservedBits.rd (rsv : BitVec 8) (addr : Addr) : Statement (.rd rsv addr) := reserved_iff 0x6#4 rsv addr

end Sys2Proof.Laws
end

