-- ==== Sys2Proof/Laws/Search.lean ====
section
/-! SUPPORT. The candidate bitmap, its count, and the RCNT entries: one law per shared operation. -/

namespace Sys2Proof.Machine

/-- Bit `k` of `bitmapOf n f` is `f k`. -/
theorem getLsbD_bitmapOf (n : Nat) (f : Nat → Bool) (k : Nat) :
    (bitmapOf n f).getLsbD k = (decide (k < n) && f k) := by
  induction n with
  | zero => simp [bitmapOf]
  | succ n ih =>
    rw [bitmapOf, BitVec.getLsbD_cons, ih]
    split
    · rename_i h; simp [h]
    · rename_i h
      have : k < n + 1 ↔ k < n := by omega
      simp [this]

/-- Every key is a candidate of the full map. -/
theorem getLsbD_allCandidates (k : Nat) : allCandidates.getLsbD k = decide (k < 1024) :=
  BitVec.getLsbD_allOnes

/-- The full map has 1024 candidates (10_state.md R14). -/
theorem candCount_allCandidates : candCount allCandidates = 1024 := by
  unfold candCount
  rw [List.countP_eq_length.2 fun k hk => by simpa [getLsbD_allCandidates] using hk, List.length_range]

/-- A map of at most the candidates of another has at most its count. -/
theorem candCount_mono {a b : CandMap} (h : ∀ k, a.getLsbD k = true → b.getLsbD k = true) :
    candCount a ≤ candCount b := by
  unfold candCount
  exact List.countP_mono_left fun k _ => h k

/-- The count is at most the number of keys (10_state.md R14). -/
theorem candCount_le (c : CandMap) : candCount c ≤ 1024 := by
  unfold candCount
  exact List.countP_le_length.trans_eq List.length_range

/-- COUNT holds every count exactly: 11 bits do not wrap (10_state.md R14). -/
theorem toNat_ofNat_candCount (c : CandMap) : (BitVec.ofNat 11 (candCount c)).toNat = candCount c := by
  have := candCount_le c
  rw [BitVec.toNat_ofNat]
  omega

/-- After SINIT no RCNT entry holds a value (10_state.md R15). -/
@[simp] theorem rcntAt_freshSearch (i : Nat) : rcntAt freshSearch i = none := by
  simp only [rcntAt, freshSearch, Vector.getElem?_replicate]
  split <;> rfl

/-- The RCNT entries after a round: RCNT[NROUNDS] is the new count, every other is as before (44_key_search.md R80). -/
theorem rcntAt_recordRound (c : CandMap) (q : Search) (i : Nat) (h : q.nrounds.toNat < 64) :
    rcntAt (recordRound c q) i =
      if i = q.nrounds.toNat then some (BitVec.ofNat 11 (candCount c)) else rcntAt q i := by
  simp only [rcntAt, recordRound, Vector.getElem?_setIfInBounds]
  by_cases hi : i = q.nrounds.toNat
  · simp [hi, h]
  · simp [hi, Ne.symm hi]

/-- The entry a round does not record is as before, in every state. -/
theorem rcntAt_recordRound_of_ne (c : CandMap) (q : Search) {i : Nat} (hi : i ≠ q.nrounds.toNat) :
    rcntAt (recordRound c q) i = rcntAt q i := by
  simp [rcntAt, recordRound, Ne.symm hi]

end Sys2Proof.Machine
end

