-- ==== Sys2Proof/Tests/Slice0.lean ====
section
/-! SUPPORT. Small tests whose expected results come from the spec, the well-formedness smoke test, and for every
statement with hypotheses a witness that they can be met. -/

namespace Sys2Proof.Tests

open Sys2Proof Sys2Proof.Machine Sys2Proof.Safety

/-! ## Small states -/

/-- The state a result leaves, if it is a next state. -/
def after : Result → Option State
  | .next t => some t
  | .fault _ => none
  | .refused _ => none

/-- The response word of a result. -/
def answer (r : Result) : Option RspWord := ((after r).bind fun t => t.rsp).map responseWord

/-- After LDKEY 1010000010 (95_test_vectors.md program P1). -/
def keyed : State := { State.reset with cipher := some ⟨0xA4, 0x43⟩ }

/-- The map of the given candidates. -/
def mapOf (ks : List Nat) : CandMap := ks.foldl (fun m k => m ||| BitVec.twoPow 1024 k) 0#1024

/-- A search with the given candidates, COUNT and counts recorded. -/
def searching (ks : List Nat) (count : Count) (counts : List Count) : Search where
  cand := mapOf ks
  count := count
  nrounds := BitVec.ofNat 7 counts.length
  rcnt := Vector.ofFn fun i => counts[i.val]?

/-- A state with that search and no key. -/
def withSearchOf (q : Search) : State := { State.reset with search := some q }

/-- After SINIT and SPAIR 10010111, 00111000 (45_state_access.md R87). -/
def three : Search := searching [0x1CA, 0x282, 0x2CA] 3 [3]

/-- After the third SPAIR of 95_test_vectors.md program P2. -/
def one : Search := searching [0x282] 1 [3, 2, 1]

/-- After the second SPAIR of 95_test_vectors.md program P3. -/
def empty : Search := searching [] 0 [3, 0]

/-- A search whose round memory is full, whatever RCNT_DEPTH is. -/
def full : Search := { three with nrounds := BitVec.ofNat 7 Config.rcntDepth }

/-! ## Well-formedness: one ill-formed term for each check, which the check refuses -/

theorem test_illFormed_ldkey : (Instr.ldkey 1 0x282).wellFormed = false := by decide
theorem test_illFormed_enc : (Instr.enc 0xFF 0x97).wellFormed = false := by decide
theorem test_illFormed_dec : (Instr.dec 1 0x38).wellFormed = false := by decide
theorem test_illFormed_sinit : (Instr.sinit 1).wellFormed = false := by decide
theorem test_illFormed_rd : (Instr.rd 1 0x05).wellFormed = false := by decide
theorem test_wellFormed : (Instr.spair 0x97 0x38).wellFormed && (Instr.ldkey 0 0x3FF).wellFormed = true := by decide

/-! ## Decoding: each command's word written out from its format (30_encoding.md R33, R35) -/

theorem test_decode_ldkey : decode (0b0001#4 ++ 0b000000#6 ++ 0b1010000010#10) = .ok (.ldkey 0 0x282) := by decide
theorem test_decode_enc : decode (0b0010#4 ++ 0b00000000#8 ++ 0b10010111#8) = .ok (.enc 0 0x97) := by decide
theorem test_decode_dec : decode (0b0011#4 ++ 0b00000000#8 ++ 0b00111000#8) = .ok (.dec 0 0x38) := by decide
theorem test_decode_sinit : decode (0b0100#4 ++ 0#16) = .ok (.sinit 0) := by decide
theorem test_decode_spair : decode (0b0101#4 ++ 0b10010111#8 ++ 0b00111000#8) = .ok (.spair 0x97 0x38) := by decide
theorem test_decode_rd : decode (0b0110#4 ++ 0b00000000#8 ++ 0b10101000#8) = .ok (.rd 0 0xA8) := by decide
theorem test_decode_illegal : decode 0x00000 = .error (.illegalCommand 0) ∧ decode 0xF1234 = .error (.illegalCommand 0xF) := by
  decide
theorem test_decodeTableWord : decodeTableWord 24 0x59738 = some (.spair 0x97 0x38) ∧ decodeTableWord 24 0x159738 = none := by
  decide

/-- 30_encoding.md R40: a string operand, a name, and the two errors of a string. -/
theorem test_assemble :
    assemble (.ldkey (.chars ['1', '0', '1', '0', '0', '0', '0', '0', '1', '0'])) = .ok 0x10282 ∧
    assemble (.rd (.named (.candw 28))) = .ok 0x6009C ∧
    assemble (.enc (.chars ['1', '0'])) = .error .invalidLength ∧
    assemble (.enc (.chars ['2'])) = .error .invalidCharacter := by decide

/-! ## The functions: 95_test_vectors.md sections 1 and 2 -/

/-- Section 2.3: a key that reaches one bit of each subkey. -/
theorem test_deriveSubkeys : deriveSubkeys 0b0000000001 = (0x02, 0x08) := by decide
/-- Section 2.4: the entries in which the tables differ from other descriptions. -/
theorem test_roundF : roundF 0b1011 0 = 0b0000 ∧ roundF 0b0110 0 = 0b0101 := by decide +kernel
/-- Section 2.5, key 1100011110. -/
theorem test_encryptWith : encryptWith 0b1100011110 0xA5 = 0xD3 := by decide +kernel
theorem test_decryptWith : decryptWith 0b1100011110 0x80 = 0xE0 := by decide +kernel

/-! ## One step each: 95_test_vectors.md programs -/

theorem test_step_ldkey : after (step (State.reset.withFetchWord 24 0x10282)) =
    some { keyed with rsp := some ⟨.ok, 0xA443⟩ } := by decide +kernel
theorem test_ldkey_reserved : answer (exec (.ldkey 1 0x282) keyed) = some 0x20000 := by decide +kernel
theorem test_enc : answer (exec (.enc 0 0x97) keyed) = some 0x00038 := by decide +kernel
theorem test_enc_order : answer (exec (.enc 0xFF 0x97) State.reset) = some 0x20000 := by decide +kernel
theorem test_dec : answer (exec (.dec 0 0x97) keyed) = some 0x0008C := by decide +kernel
theorem test_dec_noKey : answer (exec (.dec 0 0x97) State.reset) = some 0x30000 := by decide +kernel
theorem test_sinit : answer (exec (.sinit 0) (withSearchOf one)) = some 0x00400 := by decide +kernel
/-- Program P2: the second SPAIR leaves two of the three candidates. -/
theorem test_spair : after (spairAt 16 0x00 0x0E (withSearchOf three)) =
    some { withSearchOf (searching [0x282, 0x2CA] 2 [3, 2]) with rsp := some ⟨.ok, 2⟩ } := by decide +kernel
/-- Program P7: the round memory of a block of depth 1 is full after one round. -/
theorem test_spair_full : answer (spairAt 1 0x97 0x38 (withSearchOf three)) = some 0x60000 := by decide +kernel
/-- R87's worked example. -/
theorem test_rd : [0x00, 0x04, 0x40, 0x41, 0x9C, 0xA8, 0xAC].map (fun a => answer (exec (.rd 0 a) (withSearchOf three))) =
    [some 0x0000E, some 0x001CA, some 0x00003, some 0x70000, some 0x00400, some 0x00004, some 0x00400] := by
  decide +kernel
/-- Program P3: SKEY and STATUS of an empty set. -/
theorem test_rd_empty : [0x04, 0x00, 0x3F].map (fun a => answer (exec (.rd 0 a) (withSearchOf empty))) =
    [some 0x08000, some 0x0000A, some 0x70000] := by decide +kernel
theorem test_step_illegal : answer (step (State.reset.withFetchWord 24 0x70000)) = some 0x10000 := by decide +kernel

/-! ## Witnesses: the hypotheses of each statement can be met together, clause by clause -/

theorem witness_EncodeOfDecode : decode 0x103FF = .ok (.ldkey 0 0x3FF) := by decide
theorem witness_AssemblerOperandForms : (['0', '1'] : List Char).length = 2 ∧ 3 < 2 ^ 2 ∧ ¬ 4 < 2 ^ 2 := by decide
theorem witness_StepRunsDecodedCommand :
    ({ keyed with inputs := [.cmd 0x20097] } : State).inputs = .cmd 0x20097 :: [] ∧
    decode 0x20097 = .ok (.enc 0 0x97) ∧ 20 ≤ 24 := by decide
theorem witness_IllegalWordsRefused :
    ({ keyed with inputs := [.cmd 0x70000, .cmd 0x0FFFF] } : State).inputs = .cmd 0x70000 :: [.cmd 0x0FFFF] ∧
    7 ≤ (0x70000 : CmdWord).toNat / 65536 ∧ (0x0FFFF : CmdWord).toNat / 65536 = 0 ∧
    (0x6FFFF : CmdWord).toNat / 65536 = 6 ∧ (0x10400 : CmdWord).toNat / 65536 = 1 ∧
    decode 0x10400 = .ok (.ldkey 1 0) ∧ (Instr.ldkey 1 0).wellFormed = false := by decide
theorem witness_IdleAndIgnoredWords : keyed.inputs = [] ∧
    ({ keyed with inputs := [.ignored 5, .cmd 6] } : State).inputs = .ignored 5 :: [.cmd 6] := by decide
theorem witness_ResetClearsAndAloneClears :
    let s : State := { keyed with inputs := [.rst (some 0x59738)], search := some one }
    after (step s) = some State.reset ∧ s.keyv = true ∧ State.reset.keyv = false ∧
      s.sact = true ∧ State.reset.sact = false := by decide +kernel
theorem witness_PermuteSelectsPositions : 1 ≤ 1 ∧ 10 ≤ 10 ∧ p10.entry 1 = 3 ∧ p10.entry 10 = 6 := by decide
theorem witness_RotateLeftMovesPositions : (1 ≤ 1 ∧ 1 ≤ 5) ∧ (1 ≤ 5 ∧ 5 ≤ 5) ∧ 4 ≤ 5 - 7 % 5 + 1 := by decide
theorem witness_KeyScheduleSteps :
    (0b1000001100 : Key) = permute p10 0b1010000010 ∧ (0b1000001100 : Key) = 0b10000#5 ++ 0b01100#5 ∧
    0b00001#5 = rotateLeft 0b10000#5 1 ∧ 0b11000#5 = rotateLeft 0b01100#5 1 ∧
    0b00100#5 = rotateLeft 0b00001#5 2 ∧ 0b00011#5 = rotateLeft 0b11000#5 2 := by decide
theorem witness_CipherSteps :
    (0b01011101 : Block) = permute ip 0b10010111 ∧ (0b10101101 : Block) = fk 0b01011101 0xA4 ∧
    (0b11011010 : Block) = swap 0b10101101 ∧ (0b00101010 : Block) = fk 0b11011010 0x43 ∧
    (0b00101010 : Block) = permute ip 0b00111000 ∧ (0b11011010 : Block) = fk 0b00101010 0x43 ∧
    (0b10101101 : Block) = swap 0b11011010 ∧ (0b01011101 : Block) = fk 0b10101101 0xA4 ∧
    deriveSubkeys 0b1010000010 = (0xA4, 0x43) := by decide +kernel
theorem witness_LdkeyConstructsInstance : (1 : BitVec 6) ≠ 0#6 ∧ (0x3F : BitVec 6) ≠ 0#6 := by decide
theorem witness_EncAnswersCiphertext : (1 : BitVec 8) ≠ 0#8 ∧ State.reset.cipher = none ∧
    keyed.cipher = some ⟨0xA4, 0x43⟩ := by decide
theorem witness_DecAnswersPlaintext : (0x80 : BitVec 8) ≠ 0#8 ∧ (withSearchOf one).cipher = none ∧
    keyed.cipher = some ⟨0xA4, 0x43⟩ := by decide
theorem witness_OracleTestsEncryption : 1023 < 1024 ∧ 0 < 1024 := by decide
theorem witness_SinitStartsSearch : (1 : BitVec 16) ≠ 0#16 ∧ (0x8000 : BitVec 16) ≠ 0#16 := by decide
/-- The bound of `full.nrounds`, whatever RCNT_DEPTH is. -/
theorem full_nrounds : full.nrounds.toNat = Config.rcntDepth := by
  have := Config.rcntDepth_le
  simp only [full, BitVec.toNat_ofNat]
  omega
theorem witness_SpairPerformsRound_refusals : State.reset.search = none ∧
    ((withSearchOf one).search = some one ∧ one.count = 1#11) ∧
    ((withSearchOf full).search = some full ∧ full.count ≠ 1#11 ∧ full.nrounds.toNat = Config.rcntDepth) :=
  ⟨rfl, ⟨rfl, rfl⟩, rfl, by decide, full_nrounds⟩
/-- A first round, NROUNDS = 0; and a pair that all the candidates of `three` satisfy. -/
theorem witness_SpairPerformsRound_round :
    ((withSearchOf freshSearch).search = some freshSearch ∧ freshSearch.count ≠ 1#11 ∧
      freshSearch.nrounds.toNat < Config.rcntDepth) ∧
    (∀ k, k < 1024 → three.cand.getLsbD k = true → encryptWith (seq 10 k) 0x97 = 0x38) :=
  ⟨⟨rfl, by decide, Config.one_le_rcntDepth⟩, by decide +kernel⟩
theorem witness_EarlyExitAtExactlyOne :
    ((withSearchOf one).search = some one ∧ one.count = 1#11) ∧
    exec (.spair 0xFF 0x00) (withSearchOf one) = .next (refuse .doneNotConsumed (withSearchOf one)) ∧
    (refuse .doneNotConsumed (withSearchOf one)).rsp = some ⟨.doneNotConsumed, 0⟩ := ⟨⟨rfl, rfl⟩, rfl, rfl⟩
/-- An empty set before any round is recorded, whatever RCNT_DEPTH is. -/
theorem witness_EmptySetStillConsumes :
    let q := searching [] 0 []
    ((withSearchOf q).search = some q ∧ q.cand = 0#1024 ∧ q.count = 0#11 ∧ q.nrounds.toNat < Config.rcntDepth) ∧
    exec (.ldkey 0 0) (withSearchOf q) = .next (respond .ok 0 (setCipher 0 0 (withSearchOf q))) ∧
    ∀ rsv, Instr.ldkey 0 0 ≠ .sinit rsv :=
  ⟨⟨rfl, rfl, rfl, Config.one_le_rcntDepth⟩, by rfl, fun _ h => by cases h⟩
theorem countExact_three : CountExact (withSearchOf three) := by
  intro q h
  cases h
  decide +kernel
theorem witness_CandidatesNeverGrow :
    CountExact (withSearchOf three) ∧ exec (.rd 0 0) (withSearchOf three) =
      .next (respond .ok (statusWord (withSearchOf three)) (withSearchOf three)) ∧
    (∀ rsv, Instr.rd 0 0 ≠ .sinit rsv) ∧ (withSearchOf three).search = some three :=
  ⟨countExact_three, rfl, fun _ h => by (cases h), rfl⟩
/-- One pair is one round, whichever the candidates. -/
theorem recoverFrom_one_length (C : CandMap) (p : KnownPair) : (recoverFrom C [p]).2.length = 1 := by
  simp only [recoverFrom]
  split <;> rfl
theorem witness_SearchComputesRecoverKey :
    ((recoverKey [(0x97, 0x38)]).2.length ≤ Config.rcntDepth ∧
      ({ keyed with inputs := [.cmd 0x40000, .cmd 0x59738] } : State).inputs =
        (recoverExpansion [(0x97, 0x38)]).map fun i => .cmd (encode i)) ∧
    candCount (filterCandidates (mapOf [0x282]) 0x97 0x38) = 1 ∧
    candCount (filterCandidates (mapOf [0x282]) 0x97 0x39) ≠ 1 := by
  refine ⟨⟨?_, rfl⟩, by decide +kernel, by decide +kernel⟩
  exact (recoverFrom_one_length _ _).trans_le Config.one_le_rcntDepth
theorem witness_ConsistentPairsInAnyOrder :
    (recoverKey [(0x97, 0x38)]).2.length = [(0x97, 0x38)].length ∧
    ([(0x97, 0x38), (0x00, 0x0E)] : List KnownPair).Perm [(0x00, 0x0E), (0x97, 0x38)] ∧
    (∀ p ∈ ([(0x97, 0x38), (0x00, 0x0E)] : List KnownPair), encryptWith 0x282 p.1 = p.2) := by
  refine ⟨recoverFrom_one_length _ _, List.Perm.swap _ _ _, ?_⟩
  simp only [List.forall_mem_cons, List.not_mem_nil, false_imp_iff, implies_true, and_true]
  exact ⟨by decide +kernel, by decide +kernel⟩
theorem witness_RdAnswersTheMap :
    (1 : BitVec 8) ≠ 0#8 ∧ State.reset.cipher = none ∧ keyed.cipher = some ⟨0xA4, 0x43⟩ ∧
    (keyed.search = none ∧ 0x40 ≤ (0xBF : Addr).toNat ∧ (0xBF : Addr).toNat < 0xC0) ∧
    ((withSearchOf three).search = some three ∧ (63 < 64 ∧ three.nrounds.toNat ≤ 63) ∧
      (0 < 64 ∧ 0 < three.nrounds.toNat ∧ rcntAt three 0 = some 3) ∧ 63 < 64) ∧
    (5 ≤ (0x3F : Addr).toNat ∧ (0x3F : Addr).toNat < 0x40) ∧ 0xC0 ≤ (0xC0 : Addr).toNat := by decide +kernel
theorem witness_RdChangesNothing : exec (.rd 1 0xFF) keyed = .next (refuse .errInvalidLength keyed) := rfl
theorem witness_StatusFields : State.reset.search = none ∧ (withSearchOf three).search = some three ∧
    2 ≤ three.count.toNat ∧ one.count.toNat = 1 ∧ empty.count.toNat = 0 := by decide +kernel
theorem witness_SkeyIsSmallestCandidate :
    (CountExact (withSearchOf three) ∧ (withSearchOf three).search = some three ∧ three.count ≠ 0#11) ∧
    (candCount empty.cand = empty.count.toNat ∧ empty.count = 0#11) ∧
    (candCount one.cand = one.count.toNat ∧ one.count = 1#11 ∧ one.cand.getLsbD 0x282 = true) :=
  ⟨⟨countExact_three, rfl, by decide⟩, by decide +kernel, by decide +kernel⟩
theorem witness_CandidateBitOfKey : (withSearchOf three).search = some three ∧ 1023 < 1024 :=
  ⟨rfl, by decide⟩
theorem witness_AddressMapOneToOne : wordName 0xBF = some (.candw 63) := by decide
theorem witness_RefusalLeavesNoTrace :
    let s : State := { State.reset with inputs := [.cmd 0x20097] }
    s.inputs = .cmd 0x20097 :: [] ∧ step s = .next (refuse .errNoKey State.reset) ∧
      (refuse .errNoKey State.reset).rsp = some ⟨.errNoKey, 0⟩ ∧ Status.errNoKey ≠ .ok :=
  ⟨rfl, rfl, rfl, by decide⟩
theorem roundsRecorded_three : RoundsRecorded (withSearchOf three) := by
  intro q h i
  cases h
  by_cases hi : i < 64
  · exact (by decide +kernel : ∀ i, i < 64 → ((rcntAt three i).isSome = true ↔ i < three.nrounds.toNat)) i hi
  · have h1 : three.nrounds.toNat = 1 := by decide
    have h2 : rcntAt three i = none := by simp [rcntAt, Nat.le_of_not_lt hi]
    simp only [h2, h1, Option.isSome_none, Bool.false_eq_true, false_iff]
    omega
theorem witness_ChecksInFixedOrder :
    RoundsRecorded { withSearchOf three with inputs := [.cmd 0x60041] } ∧
    ({ withSearchOf three with inputs := [.cmd 0x60041] } : State).inputs = .cmd 0x60041 :: [] :=
  ⟨fun q h => roundsRecorded_three q h, rfl⟩
theorem witness_FrameOfEncDecRd : exec (.enc 0 0) State.reset = .next (refuse .errNoKey State.reset) := rfl
theorem witness_FrameOfLdkey : exec (.ldkey 1 0) keyed = .next (refuse .errInvalidLength keyed) := rfl
theorem witness_FrameOfSinitSpair :
    exec (.sinit 0) keyed = .next (respond .ok 0x0400 (setSearch freshSearch keyed)) ∧
    exec (.spair 0xFF 0) (withSearchOf one) = .next (refuse .doneNotConsumed (withSearchOf one)) ∧
    (withSearchOf one).search = some one ∧ RoundsBounded (withSearchOf full) ∧ 0 < full.nrounds.toNat :=
  ⟨rfl, rfl, rfl, fun q h => by cases h; exact full_nrounds.le, full_nrounds ▸ Config.one_le_rcntDepth⟩
theorem witness_CipherAndSearchIndependent :
    keyed.cipher = ({ keyed with search := some one } : State).cipher ∧
    (withSearchOf one).search = ({ keyed with search := some one } : State).search ∧
    exec (.sinit 1) (withSearchOf one) = .next (refuse .errInvalidLength (withSearchOf one)) := ⟨rfl, rfl, rfl⟩
theorem witness_OnlyNamedCommandsWrite :
    let s : State := { State.reset with inputs := [.cmd 0x40000] }
    step s = .next (respond .ok 0x0400 (setSearch freshSearch State.reset)) ∧
      (respond .ok 0x0400 (setSearch freshSearch State.reset)).search ≠ s.search := ⟨rfl, fun h => by cases h⟩
theorem witness_OutcomeDependsOnStateAlone :
    exec (.enc 0 0) State.reset = .next (refuse .errNoKey State.reset) ∧
    State.reset.cipher = ({ State.reset with inputs := [.cmd 0] } : State).cipher := ⟨rfl, rfl⟩
/-- The state after LDKEY 1010000010 has the invariants. -/
theorem inv_keyed : Inv keyed where
  subkeysDerived := by intro c h; cases h; exact ⟨0x282, by decide⟩
  countExact := by intro _ h; cases h
  roundsBounded := by intro _ h; cases h
  roundsRecorded := by intro _ h; cases h
  countsDescend := by intro _ h; cases h
  countIsLastRecorded := by intro _ h; cases h
  refusalsCarryNoData := by intro _ h; cases h
/-- The state after SINIT and one SPAIR has the invariants, whatever RCNT_DEPTH is. -/
theorem inv_three : Inv (withSearchOf three) where
  subkeysDerived := by intro _ h; cases h
  countExact := countExact_three
  roundsBounded := by intro q h; cases h; exact Config.one_le_rcntDepth
  roundsRecorded := roundsRecorded_three
  countsDescend := by
    intro q h i j m n _ hi hj
    have hs := roundsRecorded_three q h
    have h1 := (hs i).1 (by rw [hi]; rfl)
    have h2 := (hs j).1 (by rw [hj]; rfl)
    cases h
    have h3 : three.nrounds.toNat = 1 := by decide
    have h4 : rcntAt three 0 = some 3#11 := by decide +kernel
    obtain rfl : i = 0 := by omega
    obtain rfl : j = 0 := by omega
    rw [h4] at hi hj
    cases hi
    cases hj
    decide
  countIsLastRecorded := by
    intro q h
    cases h
    exact ⟨fun h => absurd h (by decide), fun _ => by decide +kernel⟩
  refusalsCarryNoData := by intro _ h; cases h
theorem witness_StepKeepsInvariants :
    (Inv keyed ∧ step keyed = .next (noCommand keyed)) ∧
    (Inv (withSearchOf three) ∧ step (withSearchOf three) = .next (noCommand (withSearchOf three))) :=
  ⟨⟨inv_keyed, rfl⟩, inv_three, rfl⟩

end Sys2Proof.Tests
end

section
/-! Laws of the read space, of RD, and of the commands that lack the state they need. -/

namespace Sys2Proof.Machine

@[simp] theorem wordName_status : wordName 0x00#8 = some .status := rfl

@[simp] theorem wordName_keys : wordName 0x01#8 = some .keys := rfl

/-- The addresses of the search state's words (20_memory.md R23). -/
theorem wordName_of_search_address {a : Addr} (h : 2 ≤ a.toNat ∧ a.toNat ≤ 4 ∨ 0x40 ≤ a.toNat ∧ a.toNat < 0xC0) :
    ∃ name, wordName a = some name ∧ name ≠ .status ∧ name ≠ .keys := by
  fun_cases wordName a
  case case1 | case2 | case8 => omega
  case case3 | case4 | case5 | case6 | case7 => exact ⟨_, rfl, nofun, nofun⟩

/-- The addresses without a word (20_memory.md R23). -/
theorem wordName_eq_none_iff {a : Addr} :
    wordName a = none ↔ 5 ≤ a.toNat ∧ a.toNat < 0x40 ∨ 0xC0 ≤ a.toNat := by
  fun_cases wordName a <;> simp <;> omega

/-- While SACT = 0 only STATUS and KEYS have an answer other than ERR_NO_SEARCH. -/
theorem readWord_of_search_none {s : State} (h : s.search = none) {name : WordName} (hstatus : name ≠ .status)
    (hkeys : name ≠ .keys) : readWord s name = .error .errNoSearch := by
  cases name with
  | status => exact absurd rfl hstatus
  | keys => exact absurd rfl hkeys
  | count | nrounds | skey | rcnt _ | candw _ => exact readSearch_none h _

/-- RD of an address that has a value answers it and changes nothing (45_state_access.md R87). -/
theorem exec_rd_of_memRead_ok {s : State} {a : Addr} {d : DataWord} (h : memRead s a = .ok d) :
    exec (.rd 0#8 a) s = .next (respond .ok d s) := by
  simp [exec, execRd, h]

theorem exec_enc_of_cipher_none {s : State} (h : s.cipher = none) (block : Block) :
    exec (.enc 0#8 block) s = .next (refuse .errNoKey s) := by
  simp [exec, execEnc, withCipher_none h]

theorem exec_dec_of_cipher_none {s : State} (h : s.cipher = none) (block : Block) :
    exec (.dec 0#8 block) s = .next (refuse .errNoKey s) := by
  simp [exec, execDec, withCipher_none h]

theorem exec_spair_of_search_none {s : State} (h : s.search = none) (pt ct : Block) :
    exec (.spair pt ct) s = .next (refuse .errNoSearch s) :=
  withSearch_none h _

end Sys2Proof.Machine
end

section
/-! Laws of the STATUS word: the fields of the concatenation, and its OUTCOME field case by case (10_state.md R17). -/

namespace Sys2Proof.Machine

theorem statusWord_getLsbD_keyv (s : State) : (statusWord s).getLsbD 0 = s.keyv := by
  rw [statusWord, BitVec.getLsbD_append, if_pos (by decide), BitVec.getLsbD_append, if_pos (by decide),
    BitVec.getLsbD_append, if_pos (by decide)]
  simp

theorem statusWord_getLsbD_sact (s : State) : (statusWord s).getLsbD 1 = s.sact := by
  rw [statusWord, BitVec.getLsbD_append, if_pos (by decide), BitVec.getLsbD_append, if_pos (by decide),
    BitVec.getLsbD_append, if_neg (by decide)]
  simp

theorem statusWord_getLsbD_reserved (s : State) {b : Nat} (h : 4 ≤ b) : (statusWord s).getLsbD b = false := by
  rw [statusWord, BitVec.getLsbD_append, if_neg (Nat.not_lt.2 h), BitVec.getLsbD_zero]

theorem statusWord_outcome (s : State) : (statusWord s).extractLsb' 2 2 = outcomeField s.search := by
  rw [statusWord, BitVec.extractLsb'_append_eq_of_add_le (by decide)]
  exact BitVec.extractLsb'_append_eq_left

@[simp] theorem outcomeField_none : outcomeField none = 0#2 := rfl

theorem outcomeField_of_count_one {q : Search} (h : q.count.toNat = 1) : outcomeField (some q) = 1#2 :=
  if_pos (BitVec.eq_of_toNat_eq h)

theorem outcomeField_of_count_zero {q : Search} (h : q.count.toNat = 0) : outcomeField (some q) = 2#2 := by
  have hcount : q.count = 0#11 := BitVec.eq_of_toNat_eq h
  simp [outcomeField, hcount]

theorem outcomeField_of_two_le_count {q : Search} (h : 2 ≤ q.count.toNat) : outcomeField (some q) = 3#2 := by
  have hone : q.count ≠ 1#11 := by bv_omega
  have hzero : q.count ≠ 0#11 := by bv_omega
  simp [outcomeField, hone, hzero]

end Sys2Proof.Machine
end

section
/-! Laws of the smallest candidate and of SKEY (10_state.md R14, R19). -/

namespace Sys2Proof.Machine

theorem smallestCandidate_eq_some_iff {c : CandMap} {k : Nat} :
    smallestCandidate c = some k ↔ k < 1024 ∧ c.getLsbD k = true ∧ ∀ j < k, c.getLsbD j = false := by
  unfold smallestCandidate
  rw [List.find?_range_eq_some]
  simp only [List.mem_range, Bool.not_eq_true']
  tauto

/-- A map with a nonzero count has a smallest candidate. -/
theorem exists_smallestCandidate {c : CandMap} (h : candCount c ≠ 0) : ∃ k, smallestCandidate c = some k := by
  unfold candCount at h
  unfold smallestCandidate
  obtain ⟨k, hmem, hk⟩ := List.countP_pos_iff.1 (Nat.pos_of_ne_zero h)
  exact Option.isSome_iff_exists.1 (List.find?_isSome.2 ⟨k, hmem, hk⟩)

/-- A map that counts one candidate has no two different ones. -/
theorem candidate_unique {c : CandMap} (h : candCount c = 1) {j k : Nat} (hj : c.getLsbD j = true)
    (hk : c.getLsbD k = true) : j = k := by
  unfold candCount at h
  rw [List.countP_eq_length_filter] at h
  obtain ⟨only, honly⟩ := List.length_eq_one_iff.1 h
  have eq_only : ∀ i, c.getLsbD i = true → i = only := fun i hi => by
    have hmem : i ∈ (List.range 1024).filter fun k => c.getLsbD k :=
      List.mem_filter.2 ⟨List.mem_range.2 (BitVec.lt_of_getLsbD hi), hi⟩
    rw [honly] at hmem
    exact List.mem_singleton.1 hmem
  rw [eq_only j hj, eq_only k hk]

theorem skeyWord_of_count_zero {q : Search} (h : q.count = 0#11) : skeyWord q = 0x8000#16 :=
  if_pos h

theorem skeyWord_of_smallestCandidate {q : Search} {k : Nat} (hcount : q.count ≠ 0#11)
    (h : smallestCandidate q.cand = some k) : skeyWord q = BitVec.ofNat 16 k := by
  simp [skeyWord, hcount, h]

/-- SKEY of an exact, nonzero COUNT is the smallest candidate. -/
theorem exists_smallestCandidate_skeyWord {q : Search} (hexact : q.count.toNat = candCount q.cand)
    (hcount : q.count ≠ 0#11) :
    ∃ k, smallestCandidate q.cand = some k ∧ skeyWord q = BitVec.ofNat 16 k := by
  have hpos : candCount q.cand ≠ 0 := fun h => hcount (BitVec.eq_of_toNat_eq (hexact.trans h))
  obtain ⟨k, hk⟩ := exists_smallestCandidate hpos
  exact ⟨k, hk, skeyWord_of_smallestCandidate hcount hk⟩

end Sys2Proof.Machine
end

section
/-! Commands with the same effect on two states: the same answer and the same single write, a write taking nothing from
the state it is made on. Each of the operations a command is made of keeps this relation (10_state.md R20). -/

namespace Sys2Proof.Machine

/-- The results `r` and `r'` of a command on `s` and on `s'` are one response and one write, among those `W` allows. -/
def SameEffect (W : (State → State) → Prop) (s s' : State) (r r' : Result) : Prop :=
  ∃ st d write, W write ∧ r = .next (respond st d (write s)) ∧ r' = .next (respond st d (write s'))

/-- What a cipher command may write: nothing, or K1 and K2 together. -/
inductive CipherWrite : (State → State) → Prop where
  | nothing : CipherWrite id
  | subkeys (k1 k2 : Subkey) : CipherWrite (setCipher k1 k2)

/-- What a search command may write: nothing, or the search state whole. -/
inductive SearchWrite : (State → State) → Prop where
  | nothing : SearchWrite id
  | search (q : Search) : SearchWrite (setSearch q)

section
variable {W : (State → State) → Prop} {s s' : State} {r r' : Result}

theorem sameEffect_respond (hid : W id) (st : Status) (d : DataWord) :
    SameEffect W s s' (.next (respond st d s)) (.next (respond st d s')) :=
  ⟨st, d, id, hid, rfl, rfl⟩

theorem sameEffect_refuse (hid : W id) (st : Status) :
    SameEffect W s s' (.next (refuse st s)) (.next (refuse st s')) :=
  sameEffect_respond hid st 0#16

theorem sameEffect_withReserved (hid : W id) {n : Nat} (rsv : BitVec n) (h : SameEffect W s s' r r') :
    SameEffect W s s' (withReserved rsv s r) (withReserved rsv s' r') := by
  by_cases hrsv : rsv = 0#n
  · subst hrsv
    simpa only [withReserved_zero] using h
  · simpa only [withReserved_ne hrsv] using sameEffect_refuse hid .errInvalidLength

theorem sameEffect_withCipher (hid : W id) (hcipher : s.cipher = s'.cipher) {run run' : CipherInstance → Result}
    (h : ∀ c, SameEffect W s s' (run c) (run' c)) : SameEffect W s s' (withCipher s run) (withCipher s' run') := by
  cases hc : s.cipher with
  | none => simpa only [withCipher_none hc, withCipher_none (hcipher ▸ hc)] using sameEffect_refuse hid .errNoKey
  | some c => simpa only [withCipher_some hc, withCipher_some (hcipher ▸ hc)] using h c

theorem sameEffect_withSearch (hid : W id) (hsearch : s.search = s'.search) {run run' : Search → Result}
    (h : ∀ q, SameEffect W s s' (run q) (run' q)) : SameEffect W s s' (withSearch s run) (withSearch s' run') := by
  cases hq : s.search with
  | none => simpa only [withSearch_none hq, withSearch_none (hsearch ▸ hq)] using sameEffect_refuse hid .errNoSearch
  | some q => simpa only [withSearch_some hq, withSearch_some (hsearch ▸ hq)] using h q

end

theorem sameEffect_ldkey (rsv : BitVec 6) (key : Key) (s s' : State) :
    SameEffect CipherWrite s s' (exec (.ldkey rsv key) s) (exec (.ldkey rsv key) s') :=
  sameEffect_withReserved .nothing rsv ⟨_, _, _, .subkeys _ _, rfl, rfl⟩

theorem sameEffect_enc (rsv : BitVec 8) (block : Block) {s s' : State} (h : s.cipher = s'.cipher) :
    SameEffect CipherWrite s s' (exec (.enc rsv block) s) (exec (.enc rsv block) s') :=
  sameEffect_withReserved .nothing rsv <|
    sameEffect_withCipher .nothing h fun _ => sameEffect_respond .nothing _ _

theorem sameEffect_dec (rsv : BitVec 8) (block : Block) {s s' : State} (h : s.cipher = s'.cipher) :
    SameEffect CipherWrite s s' (exec (.dec rsv block) s) (exec (.dec rsv block) s') :=
  sameEffect_withReserved .nothing rsv <|
    sameEffect_withCipher .nothing h fun _ => sameEffect_respond .nothing _ _

theorem sameEffect_sinit (rsv : BitVec 16) (s s' : State) :
    SameEffect SearchWrite s s' (exec (.sinit rsv) s) (exec (.sinit rsv) s') :=
  sameEffect_withReserved .nothing rsv ⟨_, _, _, .search _, rfl, rfl⟩

theorem sameEffect_spair (pt ct : Block) {s s' : State} (h : s.search = s'.search) :
    SameEffect SearchWrite s s' (exec (.spair pt ct) s) (exec (.spair pt ct) s') := by
  refine sameEffect_withSearch .nothing h fun q => ?_
  by_cases hdone : q.count = 1#11
  · simpa only [if_pos hdone] using sameEffect_refuse .nothing .doneNotConsumed
  by_cases hfull : q.nrounds.toNat = Config.rcntDepth
  · simpa only [if_neg hdone, if_pos hfull] using sameEffect_refuse .nothing .errRcntFull
  · simpa only [if_neg hdone, if_neg hfull] using ⟨_, _, _, .search _, rfl, rfl⟩

/-- The same cipher write leaves each search state and makes KEYV, K1, K2 and the response the same. -/
theorem fields_of_sameEffect_cipherWrite {s s' t t' : State} (h : SameEffect CipherWrite s s' (.next t) (.next t'))
    (hcipher : s.cipher = s'.cipher) : t.search = s.search ∧ t.cipher = t'.cipher ∧ t.rsp = t'.rsp := by
  obtain ⟨st, d, write, hwrite, ⟨⟩, ⟨⟩⟩ := h
  cases hwrite with
  | nothing => exact ⟨rfl, hcipher, rfl⟩
  | subkeys => exact ⟨rfl, rfl, rfl⟩

/-- The same search write leaves KEYV, K1, K2 as they were and makes the search state and the response the same. -/
theorem fields_of_sameEffect_searchWrite {s s' t t' : State} (h : SameEffect SearchWrite s s' (.next t) (.next t'))
    (hsearch : s.search = s'.search) : t.cipher = s.cipher ∧ t.search = t'.search ∧ t.rsp = t'.rsp := by
  obtain ⟨st, d, write, hwrite, ⟨⟩, ⟨⟩⟩ := h
  cases hwrite with
  | nothing => exact ⟨rfl, hsearch, rfl⟩
  | search => exact ⟨rfl, rfl, rfl⟩

end Sys2Proof.Machine
end

section
/-! The statements of 10_state.md. -/

namespace Sys2Proof.Proofs

open Sys2Proof.Machine

/-- Settles O38, field by field of the STATUS word. -/
theorem statusFields : Obligations.StatusFields := by
  unfold Obligations.StatusFields
  intro s
  refine ⟨exec_rd_of_memRead_ok (memRead_of_wordName wordName_status s), statusWord_getLsbD_keyv s,
    statusWord_getLsbD_sact s, fun b hb => statusWord_getLsbD_reserved s hb, fun hnone => ?_, fun q hq => ?_⟩
  · rw [statusWord_outcome, hnone]
    exact outcomeField_none
  · rw [statusWord_outcome, hq]
    exact ⟨outcomeField_of_count_one, outcomeField_of_count_zero, outcomeField_of_two_le_count⟩

/-- Settles O39: an exact, nonzero COUNT gives a smallest candidate, and it is the only one when COUNT = 1. -/
theorem skeyIsSmallestCandidate : Obligations.SkeyIsSmallestCandidate := by
  unfold Obligations.SkeyIsSmallestCandidate
  intro s q hinv hq
  have hexact := hinv q hq
  refine ⟨skeyWord_of_count_zero, fun hcount => ?_, fun hone k hk => ?_⟩
  · obtain ⟨k, hsmallest, hskey⟩ := exists_smallestCandidate_skeyWord hexact hcount
    obtain ⟨hlt, hcand, hbelow⟩ := smallestCandidate_eq_some_iff.1 hsmallest
    exact ⟨k, hlt, hcand, hbelow, hskey⟩
  · obtain ⟨j, hsmallest, hskey⟩ := exists_smallestCandidate_skeyWord hexact (by simp [hone])
    obtain ⟨-, hcand, -⟩ := smallestCandidate_eq_some_iff.1 hsmallest
    have hcandCount : candCount q.cand = 1 := by simpa [hone] using hexact.symm
    rw [hskey, candidate_unique hcandCount hcand hk]

/-- Settles O49: each command has the same effect on the two states, a cipher write or a search write. -/
theorem cipherAndSearchIndependent : Obligations.CipherAndSearchIndependent := by
  unfold Obligations.CipherAndSearchIndependent
  constructor
  · intro i s s' t t' hi hcipher ht ht'
    have heffect : SameEffect CipherWrite s s' (exec i s) (exec i s') := by
      obtain ⟨rsv, key, rfl⟩ | ⟨rsv, block, rfl⟩ | ⟨rsv, block, rfl⟩ := hi
      · exact sameEffect_ldkey rsv key s s'
      · exact sameEffect_enc rsv block hcipher
      · exact sameEffect_dec rsv block hcipher
    rw [ht, ht'] at heffect
    exact fields_of_sameEffect_cipherWrite heffect hcipher
  · intro i s s' t t' hi hsearch ht ht'
    have heffect : SameEffect SearchWrite s s' (exec i s) (exec i s') := by
      obtain ⟨rsv, rfl⟩ | ⟨pt, ct, rfl⟩ := hi
      · exact sameEffect_sinit rsv s s'
      · exact sameEffect_spair pt ct hsearch
    rw [ht, ht'] at heffect
    exact fields_of_sameEffect_searchWrite heffect hsearch

/-- Every read at reset: STATUS is zero, and no other word has a value (10_state.md R21, 20_memory.md R23). -/
theorem memRead_reset (a : Addr) : memRead State.reset a =
    if a.toNat = 0x00 then .ok 0x0000#16
    else if a.toNat = 0x01 then .error .errNoKey
    else if a.toNat ≤ 0x04 ∨ (0x40 ≤ a.toNat ∧ a.toNat < 0xC0) then .error .errNoSearch
    else .error .errBadAddr := by
  split_ifs with hstatus hkeys hsearch
  · obtain rfl : a = 0x00#8 := BitVec.eq_of_toNat_eq hstatus
    exact memRead_of_wordName wordName_status _
  · obtain rfl : a = 0x01#8 := BitVec.eq_of_toNat_eq hkeys
    exact (memRead_of_wordName wordName_keys _).trans (readKeys_none reset_cipher)
  · obtain ⟨name, hname, hstatus, hkeys⟩ := wordName_of_search_address (a := a) (by omega)
    rw [memRead_of_wordName hname, readWord_of_search_none reset_search hstatus hkeys]
  · exact memRead_of_unmapped (wordName_eq_none_iff.2 (by omega)) _

/-- Settles O10: every read at reset by the address's range, and the three commands by the check that refuses them. -/
theorem resetStateIsUnreadable : Obligations.ResetStateIsUnreadable := by
  unfold Obligations.ResetStateIsUnreadable
  exact ⟨rfl, rfl, memRead_reset, exec_enc_of_cipher_none reset_cipher, exec_dec_of_cipher_none reset_cipher,
    exec_spair_of_search_none reset_search⟩

end Sys2Proof.Proofs
end

section
/-! Laws of who may write the state: the frame of a step that performs no command, the writes of a command, and what a
filtered candidate set can hold (20_memory.md R28, 10_state.md R9). -/

namespace Sys2Proof.Machine

/-- A candidate stays exactly when the oracle accepts it (44_key_search.md R76). -/
theorem getLsbD_filterCandidates (cand : CandMap) (pt ct : Block) (k : Nat) :
    (filterCandidates cand pt ct).getLsbD k = (decide (k < 1024) && (cand.getLsbD k && oracle k pt ct)) := by
  unfold filterCandidates
  exact getLsbD_bitmapOf 1024 _ k

/-- Every key is a candidate of a fresh search (44_key_search.md R79). -/
theorem getLsbD_freshSearch {k : Nat} (h : k < 1024) : freshSearch.cand.getLsbD k = true := by
  rw [freshSearch_cand, getLsbD_allCandidates, decide_eq_true h]

/-- A search round adds no candidate. -/
theorem getLsbD_of_getLsbD_searchRound {pt ct : Block} {q : Search} {k : Nat}
    (h : (searchRound pt ct q).cand.getLsbD k = true) : q.cand.getLsbD k = true := by
  rw [searchRound, recordRound_cand, getLsbD_filterCandidates] at h
  simp only [Bool.and_eq_true] at h
  exact h.2.1

section
variable {i : Instr} {s t : State}

/-- What a command writes: nothing, or the cipher instance by LDKEY, or the search state by SINIT or SPAIR. -/
theorem exec_writes (h : exec i s = .next t) :
    (t.cipher = s.cipher ∧ t.search = s.search) ∨
    (∃ key, i = .ldkey 0#6 key ∧ t.cipher = some ⟨(deriveSubkeys key).1, (deriveSubkeys key).2⟩ ∧
      t.search = s.search) ∨
    (i = .sinit 0#16 ∧ t.cipher = s.cipher ∧ t.search = some freshSearch) ∨
    (∃ pt ct q, i = .spair pt ct ∧ s.search = some q ∧ t.cipher = s.cipher ∧
      t.search = some (searchRound pt ct q)) := by
  obtain ⟨st, -, hrun⟩ | ⟨d, hrun, -⟩ | ⟨key, hi, hrun⟩ | ⟨hi, hrun⟩ | ⟨pt, ct, q, hi, hq, -, -, hrun⟩ := exec_cases i s
  · cases hrun.symm.trans h
    exact .inl ⟨rfl, rfl⟩
  · cases hrun.symm.trans h
    exact .inl ⟨rfl, rfl⟩
  · cases hrun.symm.trans h
    exact .inr (.inl ⟨key, hi, rfl, rfl⟩)
  · cases hrun.symm.trans h
    exact .inr (.inr (.inl ⟨hi, rfl, rfl⟩))
  · cases hrun.symm.trans h
    exact .inr (.inr (.inr ⟨pt, ct, q, hi, hq, rfl, rfl⟩))

/-- A step is a reset, a legal command, or leaves the cipher instance and the search state as they were. -/
theorem step_frame (h : step s = .next t) :
    (t.cipher = s.cipher ∧ t.search = s.search) ∨ (∃ p rest, s.inputs = .rst p :: rest) ∨
    (∃ w rest i, s.inputs = .cmd w :: rest ∧ decode w = .ok i ∧ exec i { s with inputs := rest } = .next t) := by
  obtain ⟨-, hrun⟩ | ⟨w, rest, -, hrun⟩ | ⟨p, rest, hin, -⟩ | ⟨w, rest, i, hin, hdec, hrun⟩ | ⟨w, rest, e, -, -, hrun⟩ :=
    step_cases s
  · cases hrun.symm.trans h
    exact .inl ⟨rfl, rfl⟩
  · cases hrun.symm.trans h
    exact .inl ⟨rfl, rfl⟩
  · exact .inr (.inl ⟨p, rest, hin⟩)
  · exact .inr (.inr ⟨w, rest, i, hin, hdec, hrun.symm.trans h⟩)
  · cases hrun.symm.trans h
    exact .inl ⟨rfl, rfl⟩

end

end Sys2Proof.Machine
end

section
/-! The statement of 20_memory.md. -/

namespace Sys2Proof.Proofs

open Sys2Proof.Machine

/-- Settles O50: a step that is no reset and changes the state performs a command, which is then one of the writers. -/
theorem onlyNamedCommandsWrite : Obligations.OnlyNamedCommandsWrite := by
  unfold Obligations.OnlyNamedCommandsWrite
  intro s t hstep
  obtain ⟨hcipher, hsearch⟩ | hreset | ⟨w, rest, i, hin, hdec, hexec⟩ := step_frame hstep
  · exact ⟨fun hne => absurd hcipher hne, fun hne => absurd hsearch hne⟩
  · exact ⟨fun _ => .inl hreset, fun _ => .inl hreset⟩
  · obtain ⟨hcipher, hsearch⟩ | ⟨key, rfl, hcipher, hsearch⟩ | ⟨rfl, hcipher, hsearch⟩ |
      ⟨pt, ct, q, rfl, hq, hcipher, hsearch⟩ := exec_writes hexec
    · exact ⟨fun hne => absurd hcipher hne, fun hne => absurd hsearch hne⟩
    · exact ⟨fun _ => .inr ⟨w, rest, key, hin, hdec, hcipher⟩, fun hne => absurd hsearch hne⟩
    · exact ⟨fun hne => absurd hcipher hne, fun _ => .inr ⟨w, rest, freshSearch, hin, hsearch,
        .inl ⟨hdec, fun _ => getLsbD_freshSearch⟩⟩⟩
    · exact ⟨fun hne => absurd hcipher hne, fun _ => .inr ⟨w, rest, searchRound pt ct q, hin, hsearch,
        .inr ⟨pt, ct, q, hdec, hq, fun _ => getLsbD_of_getLsbD_searchRound⟩⟩⟩

end Sys2Proof.Proofs
end

section
/-! Laws of the decoder by `op`, of the reserved-bits check, of the answer to every command word, and of the codes of a
response (30_encoding.md R32, R34, R36, R38, R39). -/

namespace Sys2Proof.Machine

/-- `op = cmd[19:16]` as a number (30_encoding.md R32). -/
theorem opField_toNat (w : CmdWord) : (opField w).toNat = w.toNat / 65536 := by
  have hw := w.isLt
  rw [opField, BitVec.extractLsb'_toNat, Nat.shiftRight_eq_div_pow]
  omega

/-- An `op` of 1 to 6 selects a command, whatever `arg` holds (30_encoding.md R35). -/
theorem exists_decode_of_legal_op {w : CmdWord} (hlow : 1 ≤ w.toNat / 65536) (hhigh : w.toNat / 65536 ≤ 6) :
    ∃ i, decode w = .ok i := by
  rw [← opField_toNat] at hlow hhigh
  fun_cases decode w
  case case1 | case2 | case3 | case4 | case5 | case6 => exact ⟨_, rfl⟩
  case case7 =>
    simp only [imp_false] at *
    omega

/-- An `op` of 0 or 7 to 15 selects no command, whatever `arg` holds (30_encoding.md R36). -/
theorem decode_of_illegal_op {w : CmdWord} (h : w.toNat / 65536 = 0 ∨ 7 ≤ w.toNat / 65536) :
    decode w = .error (.illegalCommand (opField w)) := by
  rw [← opField_toNat] at h
  fun_cases decode w
  case case1 | case2 | case3 | case4 | case5 | case6 => omega
  case case7 => rfl

/-- A set reserved bit is the first thing a command checks: it refuses, whatever the state holds (30_encoding.md R34). -/
theorem exec_of_not_wellFormed {i : Instr} (h : i.wellFormed = false) (s : State) :
    exec i s = .next (refuse .errInvalidLength s) := by
  cases i with
  | ldkey rsv | enc rsv | dec rsv | sinit rsv | rd rsv => exact withReserved_ne (by simpa [Instr.wellFormed] using h) s _
  | spair => cases h

/-- Every command is answered, performed or refused (30_encoding.md R38). -/
theorem exec_answered (i : Instr) (s : State) : ∃ t r, exec i s = .next t ∧ t.rsp = some r := by
  obtain ⟨_, -, hrun⟩ | ⟨_, hrun, -⟩ | ⟨_, -, hrun⟩ | ⟨-, hrun⟩ | ⟨_, _, _, -, -, -, -, hrun⟩ := exec_cases i s
  all_goals exact ⟨_, _, hrun, rfl⟩

section
variable {s : State} {w : CmdWord} {rest : List HostInput}

/-- A word that stands for a command is performed on the state with its transaction taken. -/
theorem step_of_decode_ok {i : Instr} (hin : s.inputs = .cmd w :: rest) (hdec : decode w = .ok i) :
    step s = exec i { s with inputs := rest } := by
  simp [step, nextInput, hin, hdec]

/-- A word that stands for no command is refused with the transaction taken (30_encoding.md R36). -/
theorem step_of_decode_error {e : DecodeError} (hin : s.inputs = .cmd w :: rest) (hdec : decode w = .error e) :
    step s = .next (refuse .errIllegalCmd { s with inputs := rest }) := by
  simp [step, nextInput, hin, hdec, refuseIllegal]

/-- Every command word is answered, legal or not (30_encoding.md R36, R38). -/
theorem step_of_cmd_answered (hin : s.inputs = .cmd w :: rest) : ∃ t r, step s = .next t ∧ t.rsp = some r := by
  cases hdec : decode w with
  | ok i =>
    rw [step_of_decode_ok hin hdec]
    exact exec_answered i _
  | error e => exact ⟨_, _, step_of_decode_error hin hdec, refuse_rsp _ _⟩

end

/-- The codes 0x8 to 0xF belong to no status (30_encoding.md R39). -/
theorem statusCode_lt (st : Status) : (statusCode st).toNat < 8 := by
  cases st <;> decide

/-- The response word as a number: `status` above `data` (30_encoding.md R38). -/
theorem responseWord_toNat (r : Response) :
    (responseWord r).toNat = (statusCode r.status).toNat * 65536 + r.data.toNat := by
  rw [responseWord, BitVec.toNat_append, ← Nat.shiftLeft_add_eq_or_of_lt r.data.isLt, Nat.shiftLeft_eq]

end Sys2Proof.Machine
end

section
/-! The statements of 30_encoding.md. -/

namespace Sys2Proof.Proofs

open Sys2Proof.Machine

/-- Settles O7: `op` decides whether the word is a command, and a command checks its reserved bits first. -/
theorem illegalWordsRefused : Obligations.IllegalWordsRefused := by
  unfold Obligations.IllegalWordsRefused
  intro s w rest hin
  refine ⟨fun hop => step_of_decode_error hin (decode_of_illegal_op hop), fun hlow hhigh => ?_,
    step_of_cmd_answered hin⟩
  obtain ⟨i, hdec⟩ := exists_decode_of_legal_op hlow hhigh
  exact ⟨i, hdec, fun hill => (step_of_decode_ok hin hdec).trans (exec_of_not_wellFormed hill _)⟩

/-- Settles O42: the table of codes, and the response word as a number bounded by the largest code. -/
theorem statusCodes : Obligations.StatusCodes := by
  unfold Obligations.StatusCodes
  refine ⟨rfl, rfl, rfl, rfl, rfl, rfl, rfl, rfl, fun r => ⟨responseWord_toNat r, ?_⟩⟩
  have hcode := statusCode_lt r.status
  have hdata := r.data.isLt
  rw [responseWord_toNat]
  omega

end Sys2Proof.Proofs
end

section
/-! Laws of `permute` and `rotateLeft`, position by position. -/

namespace Sys2Proof.Machine

/-- The precondition of `permute`, which every table carries (40_bit_utilities.md R42). -/
theorem PermTable.entry_inRange {m n i : Nat} (T : PermTable m n) (h1 : 1 ≤ i) (hn : i ≤ n) :
    1 ≤ T.entry i ∧ T.entry i ≤ m := by
  have hlt : i - 1 < T.entries.length := by
    rw [T.length_eq]
    omega
  rw [PermTable.entry, List.getD_eq_getElem _ _ hlt]
  exact T.inRange _ (List.getElem_mem hlt)

/-- `permute(s, T){i} = s{T{i}}` (40_bit_utilities.md R42). -/
theorem pos_permute {m n i : Nat} (T : PermTable m n) (s : BitVec m) (h1 : 1 ≤ i) (hn : i ≤ n) :
    pos (permute T s) i = pos s (T.entry i) :=
  pos_ofPositions _ h1 hn

section
variable {m i : Nat} (s : BitVec m) (n : Nat) (h1 : 1 ≤ i) (hm : i ≤ m)
include h1 hm

/-- `rotateLeft(s, n){i} = s{((i - 1 + n) mod m) + 1}` (40_bit_utilities.md R43). -/
theorem pos_rotateLeft : pos (rotateLeft s n) i = pos s ((i - 1 + n) % m + 1) :=
  pos_ofPositions _ h1 hm

/-- The source position of `rotateLeft` in `s{r+1..m} ++ s{1..r}`, `r = n mod m` (40_bit_utilities.md R43). -/
theorem rotateLeft_source_position :
    (i - 1 + n) % m + 1 = if i ≤ m - n % m then n % m + i else i - (m - n % m) := by
  have hr : n % m < m := Nat.mod_lt _ (by omega)
  rw [Nat.add_mod, Nat.mod_eq_of_lt (by omega : i - 1 < m)]
  split
  case isTrue hleft =>
    rw [Nat.mod_eq_of_lt (by omega)]
    omega
  case isFalse hright =>
    rw [Nat.mod_eq_sub_mod (by omega), Nat.mod_eq_of_lt (by omega)]
    omega

end

/-- A rotation depends on its amount modulo the length only (40_bit_utilities.md R43). -/
theorem rotateLeft_mod {m : Nat} (s : BitVec m) (n : Nat) : rotateLeft s (n % m) = rotateLeft s n := by
  simp only [rotateLeft, Nat.add_mod_mod]

theorem rotateLeft_zero {m : Nat} (s : BitVec m) : rotateLeft s 0 = s := by
  refine eq_of_pos fun i h1 hm => ?_
  rw [pos_rotateLeft s 0 h1 hm, Nat.add_zero, Nat.mod_eq_of_lt (by omega), Nat.sub_add_cancel h1]

theorem rotateLeft_length {m : Nat} (s : BitVec m) : rotateLeft s m = s := by
  rw [← rotateLeft_mod, Nat.mod_self, rotateLeft_zero]

end Sys2Proof.Machine
end

section
/-! The statements of 40_bit_utilities.md. -/

namespace Sys2Proof.Proofs

open Sys2Proof.Machine

/-- Settles O12: every entry of a table is a position of its input, and `permute` reads that position. -/
theorem permuteSelectsPositions : Obligations.PermuteSelectsPositions := by
  unfold Obligations.PermuteSelectsPositions
  refine ⟨fun m n T s i h1 hn => ?_, by decide⟩
  obtain ⟨hlow, hhigh⟩ := T.entry_inRange h1 hn
  exact ⟨hlow, hhigh, pos_permute T s h1 hn⟩

/-- Settles O13: the index formula, whose source position is also the one in `s{r+1..m} ++ s{1..r}`. -/
theorem rotateLeftMovesPositions : Obligations.RotateLeftMovesPositions := by
  unfold Obligations.RotateLeftMovesPositions
  refine ⟨fun m s n i h1 hm => ⟨pos_rotateLeft s n h1 hm, ?_⟩,
    fun m s n => ⟨rotateLeft_zero s, rotateLeft_length s, (rotateLeft_mod s n).symm⟩,
    by decide, by decide, by decide, by decide⟩
  rw [pos_rotateLeft s n h1 hm, rotateLeft_source_position n h1 hm, apply_ite (pos s)]

end Sys2Proof.Proofs
end

section
/-! Laws of the key schedule's halves and of LDKEY: its word and its run (41_key_schedule.md R53, R56). -/

namespace Sys2Proof.Machine

@[simp] theorem keyLeft_append (a b : KeyHalf) : keyLeft (a ++ b) = a := BitVec.extractLsb'_append_eq_left

@[simp] theorem keyRight_append (a b : KeyHalf) : keyRight (a ++ b) = b := BitVec.extractLsb'_append_eq_right

/-- The key schedule from the two halves of the permuted key (41_key_schedule.md R53). -/
theorem deriveSubkeys_of_halves {key : Key} {left0 right0 : KeyHalf} (h : permute p10 key = left0 ++ right0) :
    deriveSubkeys key =
      (permute p8 (rotateLeft left0 1 ++ rotateLeft right0 1),
        permute p8 (rotateLeft (rotateLeft left0 1) 2 ++ rotateLeft (rotateLeft right0 1) 2)) := by
  rw [deriveSubkeys, h, keyLeft_append, keyRight_append]

/-- The value of a concatenation: the left operand is the more significant (00_scope.md R6, 40_bit_utilities.md R51). -/
theorem toNat_append_eq_mul_add {m n : Nat} (a : BitVec m) (b : BitVec n) :
    (a ++ b).toNat = a.toNat * 2 ^ n + b.toNat := by
  rw [BitVec.toNat_append, ← Nat.shiftLeft_add_eq_or_of_lt b.isLt, Nat.shiftLeft_eq]

/-- A command word as a number: `op` above `arg` (30_encoding.md R32). -/
theorem encode_toNat (i : Instr) : (encode i).toNat = (opcode i).toNat * 0x10000 + (encodeArg i).toNat :=
  toNat_append_eq_mul_add _ _

/-- Two subkeys side by side as one data word (41_key_schedule.md R56). -/
theorem subkeys_append_eq_ofNat (k1 k2 : Subkey) : k1 ++ k2 = BitVec.ofNat 16 (val k1 * 256 + val k2) := by
  have hval : (k1 ++ k2).toNat = val k1 * 256 + val k2 := toNat_append_eq_mul_add k1 k2
  rw [← hval, BitVec.ofNat_toNat, BitVec.setWidth_eq]

/-- LDKEY constructs the cipher instance from any state (41_key_schedule.md R56). -/
theorem exec_ldkey_zero (key : Key) (s : State) :
    exec (.ldkey 0#6 key) s = .next (respond .ok ((deriveSubkeys key).1 ++ (deriveSubkeys key).2)
      (setCipher (deriveSubkeys key).1 (deriveSubkeys key).2 s)) := by
  rw [exec, execLdkey, withReserved_zero]

end Sys2Proof.Machine
end

section
/-! The statements of 41_key_schedule.md. -/

namespace Sys2Proof.Proofs

open Sys2Proof.Machine

/-- Settles O16: the two halves concatenated to the permuted key are the ones the model splits off. -/
theorem keyScheduleSteps : Obligations.KeyScheduleSteps := by
  unfold Obligations.KeyScheduleSteps
  refine ⟨?_, by decide⟩
  rintro key _ left0 right0 _ _ _ _ rfl hsplit rfl rfl rfl rfl
  exact deriveSubkeys_of_halves hsplit

/-- Settles O25: the instance and the answer depend on the key alone, so loading the same key again changes nothing. -/
theorem ldkeyConstructsInstance : Obligations.LdkeyConstructsInstance := by
  unfold Obligations.LdkeyConstructsInstance
  refine ⟨fun key => ?_, fun _ _ s hrsv => withReserved_ne hrsv s _, fun key s => ?_,
    by decide, by decide, by decide⟩
  · rw [encode_toNat, encodeArg, toNat_append_eq_mul_add]
    simp [opcode]
  · refine ⟨_, exec_ldkey_zero key s, ?_, statusWord_getLsbD_keyv _, exec_ldkey_zero key _⟩
    rw [subkeys_append_eq_ofNat]
    rfl

end Sys2Proof.Proofs
end

section
/-! Laws of the halves of a block and of the S-boxes (40_bit_utilities.md R51, 42_round_function.md R58 to R61). -/

namespace Sys2Proof.Machine

/-- `b{1..4}{i} = b{i}` (40_bit_utilities.md R51). -/
theorem pos_leftHalf {i : Nat} (b : Block) (h4 : i ≤ 4) : pos (leftHalf b) i = pos b i := by
  have h := pos_append_left (leftHalf b) (rightHalf b) h4
  rw [halves_append] at h
  exact h.symm

/-- `b{5..8}{i} = b{i+4}` (40_bit_utilities.md R51). -/
theorem pos_rightHalf {i : Nat} (b : Block) (h1 : 1 ≤ i) (h4 : i ≤ 4) : pos (rightHalf b) i = pos b (i + 4) := by
  have h := pos_append_right (leftHalf b) (rightHalf b) (i := i + 4) (by omega) (by omega)
  rw [halves_append, Nat.add_sub_cancel] at h
  exact h.symm

/-- `row = 2 * g{1} + g{4}` (42_round_function.md R60). -/
theorem sboxRow_toNat (g : Half) : (sboxRow g).toNat = 2 * (pos g 1).toNat + (pos g 4).toNat := by
  rw [sboxRow, toNat_append_eq_mul_add, BitVec.toNat_ofBool, BitVec.toNat_ofBool, pow_one, Nat.mul_comm]

/-- `col = 2 * g{2} + g{3}` (42_round_function.md R60). -/
theorem sboxCol_toNat (g : Half) : (sboxCol g).toNat = 2 * (pos g 2).toNat + (pos g 3).toNat := by
  rw [sboxCol, toNat_append_eq_mul_add, BitVec.toNat_ofBool, BitVec.toNat_ofBool, pow_one, Nat.mul_comm]

/-- The entries of an S-box as numbers, row by row, as the spec prints them (42_round_function.md R58, R59). -/
def sboxNumbers (S : SBox) : List (List Nat) := S.toList.map fun row => row.toList.map BitVec.toNat

theorem sboxNumbers_sbox0 : sboxNumbers sbox0 = [[1, 0, 3, 2], [3, 2, 1, 0], [0, 2, 1, 3], [3, 1, 0, 2]] := rfl

theorem sboxNumbers_sbox1 : sboxNumbers sbox1 = [[0, 1, 2, 3], [2, 3, 1, 0], [3, 0, 1, 2], [2, 1, 0, 3]] := rfl

/-- The number in row `row` and column `col` of the printed table, as a 2-bit sequence (42_round_function.md R61). -/
theorem sboxAt_eq_seq (S : SBox) (row col : BitVec 2) :
    sboxAt S row col = seq 2 (((sboxNumbers S).getD row.toNat []).getD col.toNat 0) := by
  have hrow : row.toNat < 4 := row.isLt
  have hcol : col.toNat < 4 := col.isLt
  simp [sboxAt, sboxNumbers, hrow, hcol]

/-- An S-box's output for a group, looked up by the row and column rule (42_round_function.md R60, R61). -/
theorem sboxOut_eq_seq (S : SBox) (g : Half) :
    sboxOut S g = seq 2 (((sboxNumbers S).getD (2 * (pos g 1).toNat + (pos g 4).toNat) []).getD
      (2 * (pos g 2).toNat + (pos g 3).toNat) 0) := by
  rw [sboxOut, sboxAt_eq_seq, sboxRow_toNat, sboxCol_toNat]

end Sys2Proof.Machine
end

section
/-! The statement of 42_round_function.md. -/

namespace Sys2Proof.Proofs

open Sys2Proof.Machine

/-- Settles O19: the two groups are the halves of the mixed block, each looked up in its printed table. -/
theorem roundFunctionSteps : Obligations.RoundFunctionSteps := by
  unfold Obligations.RoundFunctionSteps
  refine ⟨fun half subkey => ?_, by decide⟩
  rw [roundF, sboxOut_eq_seq, sboxOut_eq_seq, sboxNumbers_sbox0, sboxNumbers_sbox1]
  simp (disch := omega) only [pos_leftHalf, pos_rightHalf, Nat.reduceAdd]

end Sys2Proof.Proofs
end

section
/-! Laws of the cipher engine's functions and of ENC and DEC: what the round, the swap and the permutations IP, IP⁻¹
undo, the word of a block command, and the answer under a key (43_cipher_engine.md R65 to R69, R71, R72). -/

namespace Sys2Proof.Machine

@[simp] theorem leftHalf_fk (bits : Block) (subkey : Subkey) :
    leftHalf (fk bits subkey) = leftHalf bits ^^^ roundF (rightHalf bits) subkey :=
  leftHalf_append _ _

@[simp] theorem rightHalf_fk (bits : Block) (subkey : Subkey) : rightHalf (fk bits subkey) = rightHalf bits :=
  rightHalf_append _ _

/-- F is taken of the half that a round keeps, so the second round cancels it (43_cipher_engine.md R65). -/
@[simp] theorem fk_fk (bits : Block) (subkey : Subkey) : fk (fk bits subkey) subkey = bits := by
  rw [fk, leftHalf_fk, rightHalf_fk, BitVec.xor_assoc, BitVec.xor_self, BitVec.xor_zero, halves_append]

@[simp] theorem leftHalf_swap (bits : Block) : leftHalf (swap bits) = rightHalf bits := leftHalf_append _ _

@[simp] theorem rightHalf_swap (bits : Block) : rightHalf (swap bits) = leftHalf bits := rightHalf_append _ _

@[simp] theorem swap_swap (bits : Block) : swap (swap bits) = bits := by
  rw [swap, leftHalf_swap, rightHalf_swap, halves_append]

/-- A permutation is undone by one whose entries lead each position back to itself. -/
theorem permute_permute_of_entry_entry {m n : Nat} {T : PermTable m n} {U : PermTable n m}
    (h : ∀ i : Fin m, T.entry (U.entry (i + 1)) = i + 1) (s : BitVec m) : permute U (permute T s) = s := by
  refine eq_of_pos fun i h1 hm => ?_
  obtain ⟨hlow, hhigh⟩ := U.entry_inRange h1 hm
  have hback : T.entry (U.entry i) = i := by
    simpa only [Nat.sub_add_cancel h1] using h ⟨i - 1, by omega⟩
  rw [pos_permute U _ h1 hm, pos_permute T s hlow hhigh, hback]

/-- IP⁻¹ undoes IP (40_bit_utilities.md R46, R47). -/
@[simp] theorem permute_ipInv_permute_ip (x : Block) : permute ipInv (permute ip x) = x :=
  permute_permute_of_entry_entry (by decide) x

/-- IP undoes IP⁻¹ (40_bit_utilities.md R46, R47). -/
@[simp] theorem permute_ip_permute_ipInv (x : Block) : permute ip (permute ipInv x) = x :=
  permute_permute_of_entry_entry (by decide) x

/-- Decryption is encryption with the subkeys exchanged (43_cipher_engine.md R68). -/
theorem decrypt_eq_encrypt (k1 k2 : Subkey) : decrypt k1 k2 = encrypt k2 k1 := rfl

/-- With the subkeys exchanged the second run undoes the first from its last step back: IP⁻¹, the round of `k2`, the
swap, the round of `k1`, IP (43_cipher_engine.md R69). -/
theorem encrypt_exchanged_encrypt (k1 k2 : Subkey) (x : Block) : encrypt k2 k1 (encrypt k1 k2 x) = x := by
  rw [encrypt, encrypt, permute_ip_permute_ipInv, fk_fk, swap_swap, fk_fk, permute_ipInv_permute_ip]

theorem decrypt_encrypt (k1 k2 : Subkey) (x : Block) : decrypt k1 k2 (encrypt k1 k2 x) = x := by
  rw [decrypt_eq_encrypt, encrypt_exchanged_encrypt]

theorem encrypt_decrypt (k1 k2 : Subkey) (x : Block) : encrypt k1 k2 (decrypt k1 k2 x) = x := by
  rw [decrypt_eq_encrypt, encrypt_exchanged_encrypt]

/-- The one block that encrypts to `c` is its decryption (43_cipher_engine.md R72). -/
theorem encrypt_eq_iff_eq_decrypt {k1 k2 : Subkey} {x c : Block} : encrypt k1 k2 x = c ↔ x = decrypt k1 k2 c where
  mp h := by rw [← h, decrypt_encrypt]
  mpr h := by rw [h, encrypt_decrypt]

/-- The word of a command of format B with its reserved bits zero (30_encoding.md R32, R33). -/
theorem encode_toNat_of_block_operand {i : Instr} {block : Block} (h : encodeArg i = 0#8 ++ block) :
    (encode i).toNat = (opcode i).toNat * 0x10000 + val block := by
  rw [encode_toNat, h, toNat_append_eq_mul_add, BitVec.toNat_zero, Nat.zero_mul, Nat.zero_add]

section
variable {s : State} {c : CipherInstance} (h : s.cipher = some c) (block : Block)
include h

/-- ENC under a key answers the ciphertext and writes nothing (43_cipher_engine.md R71). -/
theorem exec_enc_of_cipher_some :
    exec (.enc 0#8 block) s = .next (respond .ok ((encrypt c.k1 c.k2 block).setWidth 16) s) := by
  rw [exec, execEnc, withReserved_zero, withCipher_some h]

/-- DEC under a key answers the plaintext and writes nothing (43_cipher_engine.md R72). -/
theorem exec_dec_of_cipher_some :
    exec (.dec 0#8 block) s = .next (respond .ok ((decrypt c.k1 c.k2 block).setWidth 16) s) := by
  rw [exec, execDec, withReserved_zero, withCipher_some h]

end

end Sys2Proof.Machine
end

section
/-! The statements of 43_cipher_engine.md. -/

namespace Sys2Proof.Proofs

open Sys2Proof.Machine

/-- Settles O20: the two halves of a round, and F of the kept right half cancelling itself. -/
theorem feistelRoundUndoesItself : Obligations.FeistelRoundUndoesItself := by
  unfold Obligations.FeistelRoundUndoesItself
  exact ⟨fun bits subkey => ⟨leftHalf_fk bits subkey, rightHalf_fk bits subkey, fk_fk bits subkey⟩,
    by decide, by decide⟩

/-- Settles O21: the halves of the exchanged concatenation, and so of its exchange. -/
theorem swapExchangesHalves : Obligations.SwapExchangesHalves := by
  unfold Obligations.SwapExchangesHalves
  exact ⟨fun bits => ⟨leftHalf_swap bits, rightHalf_swap bits, swap_swap bits⟩, by decide⟩

/-- Settles O22: the two chains of steps are the definitions of `encrypt` and `decrypt` with the intermediate blocks
named. -/
theorem cipherSteps : Obligations.CipherSteps := by
  unfold Obligations.CipherSteps
  refine ⟨?_, ?_, fun key k1 k2 x hkey => ?_, by decide +kernel, by decide +kernel⟩
  · rintro k1 k2 p _ _ _ _ rfl rfl rfl rfl
    rfl
  · rintro k1 k2 c _ _ _ _ rfl rfl rfl rfl
    rfl
  · rw [encryptWith, decryptWith, hkey]
    exact ⟨rfl, rfl⟩

/-- Settles O23: for every subkey pair, and so for the pair of every key. -/
theorem decryptUndoesEncrypt : Obligations.DecryptUndoesEncrypt := by
  unfold Obligations.DecryptUndoesEncrypt
  exact ⟨fun k1 k2 x => ⟨decrypt_encrypt k1 k2 x, encrypt_decrypt k1 k2 x⟩,
    fun _ x => ⟨decrypt_encrypt _ _ x, encrypt_decrypt _ _ x⟩⟩

/-- Settles O26: the checks of ENC in their order, then its answer. -/
theorem encAnswersCiphertext : Obligations.EncAnswersCiphertext := by
  unfold Obligations.EncAnswersCiphertext
  refine ⟨fun _ => ?_, fun _ _ s hrsv => withReserved_ne hrsv s _,
    fun block _ hcipher => exec_enc_of_cipher_none hcipher block, fun block s k1 k2 hcipher => ?_,
    by decide +kernel⟩
  · rw [encode_toNat_of_block_operand rfl]
    simp [opcode]
  · rw [exec_enc_of_cipher_some hcipher, BitVec.ofNat_toNat]
    rfl

/-- Settles O27: the checks of DEC in their order, then its answer, which alone encrypts to the block. -/
theorem decAnswersPlaintext : Obligations.DecAnswersPlaintext := by
  unfold Obligations.DecAnswersPlaintext
  refine ⟨fun _ => ?_, fun _ _ s hrsv => withReserved_ne hrsv s _,
    fun block _ hcipher => exec_dec_of_cipher_none hcipher block,
    fun block s k1 k2 hcipher => ⟨?_, fun _ => encrypt_eq_iff_eq_decrypt⟩, by decide +kernel⟩
  · rw [encode_toNat_of_block_operand rfl]
    simp [opcode]
  · rw [exec_dec_of_cipher_some hcipher, BitVec.ofNat_toNat]
    rfl

end Sys2Proof.Proofs
end

section
/-! Laws of the oracle, of a filter round and of the search state a round leaves (44_key_search.md R75, R76, R80, R83). -/

namespace Sys2Proof.Machine

/-- The oracle is the encryption test (44_key_search.md R75). -/
theorem oracle_iff_encryptWith {k : Nat} {pt ct : Block} : oracle k pt ct = true ↔ encryptWith (seq 10 k) pt = ct :=
  beq_iff_eq

/-- The survivors of the worked example: each of the 1024 keys evaluated once (44_key_search.md R80). -/
theorem encrypts_worked_pair_iff :
    ∀ k, k < 1024 → (encryptWith (seq 10 k) 0b10010111 = 0b00111000 ↔ k ∈ [0x1CA, 0x282, 0x2CA]) := by
  decide +kernel

/-- A pair that every candidate satisfies filters nothing out (44_key_search.md R80). -/
theorem filterCandidates_eq_self {cand : CandMap} {pt ct : Block}
    (h : ∀ k, k < 1024 → cand.getLsbD k = true → encryptWith (seq 10 k) pt = ct) :
    filterCandidates cand pt ct = cand := by
  refine BitVec.eq_of_getLsbD_eq fun k hk => ?_
  rw [getLsbD_filterCandidates, decide_eq_true hk, Bool.true_and]
  cases hcand : cand.getLsbD k with
  | false => rfl
  | true => exact oracle_iff_encryptWith.2 (h k hk hcand)

/-- The empty set stays empty (44_key_search.md R83). -/
@[simp] theorem filterCandidates_zero (pt ct : Block) : filterCandidates 0#1024 pt ct = 0#1024 :=
  filterCandidates_eq_self fun k _ hk => by simp at hk

@[simp] theorem candCount_zero : candCount 0#1024 = 0 := by
  unfold candCount
  exact List.countP_eq_zero.2 fun k _ => by simp

section
variable (pt ct : Block) (q : Search)

@[simp] theorem searchRound_cand : (searchRound pt ct q).cand = filterCandidates q.cand pt ct := rfl

@[simp] theorem searchRound_count :
    (searchRound pt ct q).count = BitVec.ofNat 11 (candCount (filterCandidates q.cand pt ct)) := rfl

/-- A round leaves COUNT exact (10_state.md R14). -/
theorem searchRound_count_toNat : (searchRound pt ct q).count.toNat = candCount (filterCandidates q.cand pt ct) :=
  toNat_ofNat_candCount _

end

section
variable {q : Search} (pt ct : Block) (hroom : q.nrounds.toNat < Config.rcntDepth)
include hroom

/-- NROUNDS does not wrap while there is room to record a round (10_state.md R15). -/
theorem searchRound_nrounds_toNat : (searchRound pt ct q).nrounds.toNat = q.nrounds.toNat + 1 := by
  have hdepth := Config.rcntDepth_le
  rw [searchRound, recordRound_nrounds, BitVec.toNat_add_of_lt]
  · rfl
  · change q.nrounds.toNat + 1 < 2 ^ 7
    omega

/-- RCNT after a round: the new COUNT at the old NROUNDS, every other entry as before (44_key_search.md R80). -/
theorem rcntAt_searchRound (i : Nat) : rcntAt (searchRound pt ct q) i =
    if i = q.nrounds.toNat then some (searchRound pt ct q).count else rcntAt q i :=
  rcntAt_recordRound _ q i (hroom.trans_le Config.rcntDepth_le)

end

end Sys2Proof.Machine
end

section
/-! Laws of the commands SINIT and SPAIR: their runs, check by check (44_key_search.md R79, R80, R82). -/

namespace Sys2Proof.Machine

/-- SINIT starts a search from any state (44_key_search.md R79). -/
theorem exec_sinit_zero (s : State) :
    exec (.sinit 0#16) s = .next (respond .ok 0x0400#16 (setSearch freshSearch s)) := by
  rw [exec, execSinit, withReserved_zero]

section
variable {s : State} {q : Search} (hq : s.search = some q) (pt ct : Block)
include hq

/-- The early exit (44_key_search.md R82). -/
theorem exec_spair_of_count_one (hone : q.count = 1#11) :
    exec (.spair pt ct) s = .next (refuse .doneNotConsumed s) := by
  rw [exec, execSpair, spairAt, withSearch_some hq, if_pos hone]

/-- No room to record another round (44_key_search.md R80). -/
theorem exec_spair_of_full (hcount : q.count ≠ 1#11) (hfull : q.nrounds.toNat = Config.rcntDepth) :
    exec (.spair pt ct) s = .next (refuse .errRcntFull s) := by
  rw [exec, execSpair, spairAt, withSearch_some hq, if_neg hcount, if_pos hfull]

/-- One search round (44_key_search.md R80). -/
theorem exec_spair_of_room (hcount : q.count ≠ 1#11) (hroom : q.nrounds.toNat < Config.rcntDepth) :
    exec (.spair pt ct) s =
      .next (respond .ok ((searchRound pt ct q).count.setWidth 16) (setSearch (searchRound pt ct q) s)) := by
  rw [exec, execSpair, spairAt, withSearch_some hq, if_neg hcount, if_neg hroom.ne]

end

end Sys2Proof.Machine
end

section
/-! Laws of the read space: a word at its address, the statuses of a read without a value, and the words that read after
SINIT (10_state.md R17, 20_memory.md R23, R24, 44_key_search.md R79). -/

namespace Sys2Proof.Machine

theorem readSearch_error {s : State} {st : Status} {read : Search → Except Status DataWord}
    (h : readSearch s read = .error st) : st = .errNoSearch ∨ ∃ q, read q = .error st := by
  cases hq : s.search with
  | none => exact .inl (Except.error.inj ((readSearch_none hq read).symm.trans h)).symm
  | some q => exact .inr ⟨q, (readSearch_some hq read).symm.trans h⟩

/-- The three statuses of a read without a value (20_memory.md R23). -/
theorem memRead_error {s : State} {a : Addr} {st : Status} (h : memRead s a = .error st) :
    st = .errNoKey ∨ st = .errNoSearch ∨ st = .errBadAddr := by
  cases hname : wordName a with
  | none => exact .inr (.inr (Except.error.inj ((memRead_of_unmapped hname s).symm.trans h)).symm)
  | some name =>
    rw [memRead_of_wordName hname] at h
    cases name with
    | status => cases h
    | keys =>
      cases hc : s.cipher with
      | none => exact .inl (Except.error.inj ((readKeys_none hc).symm.trans h)).symm
      | some c => cases (readKeys_some hc).symm.trans h
    | count | nrounds | skey | candw _ =>
      obtain hst | ⟨q, hread⟩ := readSearch_error h
      · exact .inr (.inl hst)
      · cases hread
    | rcnt i =>
      obtain hst | ⟨q, hread⟩ := readSearch_error h
      · exact .inr (.inl hst)
      · refine .inr (.inr ?_)
        unfold readRcnt at hread
        split_ifs at hread
        · cases hread
          rfl
        · cases hentry : rcntAt q i.val <;> rw [hentry] at hread <;> cases hread
          rfl

/-- The address of a word names that word (20_memory.md R23). -/
@[simp] theorem wordName_wordAddr (name : WordName) : wordName (wordAddr name) = some name := by
  cases name with
  | status | keys | count | nrounds | skey => rfl
  | rcnt i => revert i; decide
  | candw w => revert w; decide

/-- A read at the address of a word reads that word (20_memory.md R23). -/
theorem memRead_wordAddr (s : State) (name : WordName) : memRead s (wordAddr name) = readWord s name :=
  memRead_of_wordName (wordName_wordAddr name) s

/-- STATUS[3:1]: OUTCOME above SACT (10_state.md R17). -/
theorem statusWord_outcome_sact (s : State) :
    (statusWord s).extractLsb' 1 3 = outcomeField s.search ++ BitVec.ofBool s.sact := by
  unfold statusWord
  generalize outcomeField s.search = outcome, s.sact = sact, s.keyv = keyv
  revert outcome sact keyv
  decide

/-- Every CANDW word of the full map is all ones (20_memory.md R24). -/
theorem candWord_allCandidates {w : Nat} (h : w < 64) : candWord allCandidates w = 0xFFFF#16 := by
  refine BitVec.eq_of_getLsbD_eq fun b hb => ?_
  have hbit : 16 * w + b < 1024 := by omega
  rw [candWord, BitVec.getLsbD_extractLsb', getLsbD_allCandidates, decide_eq_true hb, decide_eq_true hbit]
  exact (BitVec.getLsbD_allOnes.trans (decide_eq_true hb)).symm

/-- No RCNT entry is readable before the first round (44_key_search.md R79). -/
theorem readRcnt_freshSearch (i : Nat) : readRcnt freshSearch i = .error .errBadAddr :=
  if_pos (Nat.zero_le i)

end Sys2Proof.Machine
end

section
/-! Which status a result answers with: one law per shared operation, to tell the commands that can answer with a given
status (60_exceptions.md R89, R93). -/

namespace Sys2Proof.Machine

/-- The result `r` is a next state that answers with status `st`. -/
def Answers (st : Status) (r : Result) : Prop := ∃ t d, r = .next t ∧ t.rsp = some ⟨st, d⟩

section
variable {st st' : Status} {s : State}

theorem eq_of_answers_respond {d : DataWord} (h : Answers st (.next (respond st' d s))) : st = st' := by
  obtain ⟨_, _, ⟨⟩, ⟨⟩⟩ := h
  rfl

theorem eq_of_answers_refuse (h : Answers st (.next (refuse st' s))) : st = st' :=
  eq_of_answers_respond h

theorem answers_of_withReserved {n : Nat} {rsv : BitVec n} {run : Result} (h : Answers st (withReserved rsv s run))
    (hst : st ≠ .errInvalidLength) : Answers st run := by
  by_cases hrsv : rsv = 0#n
  · subst hrsv
    exact withReserved_zero s run ▸ h
  · exact absurd (eq_of_answers_refuse (withReserved_ne hrsv s run ▸ h)) hst

theorem answers_of_withCipher {run : CipherInstance → Result} (h : Answers st (withCipher s run))
    (hst : st ≠ .errNoKey) : ∃ c, s.cipher = some c ∧ Answers st (run c) := by
  cases hc : s.cipher with
  | none => exact absurd (eq_of_answers_refuse (withCipher_none hc run ▸ h)) hst
  | some c => exact ⟨c, rfl, withCipher_some hc run ▸ h⟩

theorem answers_of_withSearch {run : Search → Result} (h : Answers st (withSearch s run))
    (hst : st ≠ .errNoSearch) : ∃ q, s.search = some q ∧ Answers st (run q) := by
  cases hq : s.search with
  | none => exact absurd (eq_of_answers_refuse (withSearch_none hq run ▸ h)) hst
  | some q => exact ⟨q, rfl, withSearch_some hq run ▸ h⟩

end

/-- DONE_NOT_CONSUMED is the answer of a SPAIR at COUNT = 1 alone (44_key_search.md R82). -/
theorem spair_of_answers_doneNotConsumed {i : Instr} {s : State} (h : Answers .doneNotConsumed (exec i s)) :
    (∃ pt ct, i = .spair pt ct) ∧ ∃ q, s.search = some q ∧ q.count = 1#11 := by
  cases i with
  | ldkey rsv key =>
    have hrun := answers_of_withReserved h nofun
    cases eq_of_answers_respond hrun
  | enc rsv block | dec rsv block =>
    have hrun := answers_of_withReserved h nofun
    obtain ⟨c, -, hrun⟩ := answers_of_withCipher hrun nofun
    cases eq_of_answers_respond hrun
  | sinit rsv =>
    have hrun := answers_of_withReserved h nofun
    cases eq_of_answers_respond hrun
  | spair pt ct =>
    obtain ⟨q, hq, hrun⟩ := answers_of_withSearch h nofun
    refine ⟨⟨pt, ct, rfl⟩, q, hq, ?_⟩
    by_contra hcount
    rw [if_neg hcount] at hrun
    split_ifs at hrun
    · cases eq_of_answers_refuse hrun
    · cases eq_of_answers_respond hrun
  | rd rsv a =>
    have hrun := answers_of_withReserved h nofun
    cases hread : memRead s a with
    | ok d =>
      rw [hread] at hrun
      cases eq_of_answers_respond hrun
    | error st =>
      rw [hread] at hrun
      cases eq_of_answers_refuse hrun
      obtain hst | hst | hst := memRead_error hread <;> cases hst

end Sys2Proof.Machine
end

section
/-! Laws of the run of a search: decoding its words, one step of it, `recoverFrom` pair by pair, and the search state
after some pairs (44_key_search.md R77, 30_encoding.md R41). -/

namespace Sys2Proof.Machine

theorem argField_append (op : BitVec 4) (arg : BitVec 16) : argField (op ++ arg) = arg :=
  BitVec.extractLsb'_append_eq_right

theorem argHigh_append (a b : BitVec 8) : argHigh (a ++ b) = a := BitVec.extractLsb'_append_eq_left

theorem argLow_append (a b : BitVec 8) : argLow (a ++ b) = b := BitVec.extractLsb'_append_eq_right

theorem decode_encode_sinit_zero : decode (encode (.sinit 0#16)) = .ok (.sinit 0#16) := by decide

theorem decode_encode_spair (pt ct : Block) : decode (encode (.spair pt ct)) = .ok (.spair pt ct) := by
  simp [decode, encode, opcode, encodeArg, Laws.opField_append, argField_append, argHigh_append, argLow_append]

/-- A run goes on from the state its first step leaves. -/
theorem run_succ_of_step {s t : State} (h : step s = .next t) (k : Nat) :
    core.run (k + 1) s = core.run k t := by
  have hcore : core.step s = .next t := h
  simp only [Host.Core.run, hcore]

section
variable {s : State} {q : Search} {pt ct : Block} {rest : List HostInput}

/-- A step that takes a SINIT starts a search (44_key_search.md R79). -/
theorem step_sinit (hin : s.inputs = .cmd (encode (.sinit 0#16)) :: rest) :
    ∃ t, step s = .next t ∧ t.search = some freshSearch ∧ t.cipher = s.cipher ∧ t.inputs = rest :=
  ⟨_, (step_of_decode_ok hin decode_encode_sinit_zero).trans (exec_sinit_zero _), rfl, rfl, rfl⟩

variable (hq : s.search = some q) (hin : s.inputs = .cmd (encode (.spair pt ct)) :: rest)
include hq hin

/-- A step that takes a SPAIR at COUNT = 1 consumes no pair (44_key_search.md R82). -/
theorem step_spair_of_count_one (hone : q.count = 1#11) :
    ∃ t, step s = .next t ∧ t.search = some q ∧ t.cipher = s.cipher ∧ t.inputs = rest :=
  ⟨_, (step_of_decode_ok hin (decode_encode_spair pt ct)).trans
    (exec_spair_of_count_one (s := { s with inputs := rest }) hq pt ct hone), hq, rfl, rfl⟩

/-- A step that takes a SPAIR that is not refused performs one round (44_key_search.md R80). -/
theorem step_spair_of_room (hcount : q.count ≠ 1#11) (hroom : q.nrounds.toNat < Config.rcntDepth) :
    ∃ t, step s = .next t ∧ t.search = some (searchRound pt ct q) ∧ t.cipher = s.cipher ∧ t.inputs = rest :=
  ⟨_, (step_of_decode_ok hin (decode_encode_spair pt ct)).trans
    (exec_spair_of_room (s := { s with inputs := rest }) hq pt ct hcount hroom), rfl, rfl, rfl⟩

end

theorem recoverFrom_cons_of_one {cand : CandMap} {pt ct : Block} (h : candCount (filterCandidates cand pt ct) = 1)
    (rest : List KnownPair) : recoverFrom cand ((pt, ct) :: rest) = (filterCandidates cand pt ct, [1]) :=
  if_pos h

theorem recoverFrom_cons_of_ne_one {cand : CandMap} {pt ct : Block}
    (h : candCount (filterCandidates cand pt ct) ≠ 1) (rest : List KnownPair) :
    recoverFrom cand ((pt, ct) :: rest) =
      ((recoverFrom (filterCandidates cand pt ct) rest).1,
        candCount (filterCandidates cand pt ct) :: (recoverFrom (filterCandidates cand pt ct) rest).2) :=
  if_neg h

/-- The first pair is always a round (44_key_search.md R77). -/
theorem recoverFrom_cons_length_pos (cand : CandMap) (p : KnownPair) (rest : List KnownPair) :
    0 < (recoverFrom cand (p :: rest)).2.length := by
  by_cases h : candCount (filterCandidates cand p.1 p.2) = 1
  · rw [recoverFrom_cons_of_one h]
    exact Nat.one_pos
  · rw [recoverFrom_cons_of_ne_one h]
    exact Nat.succ_pos _

/-- The host presents one SPAIR per pair, in order (30_encoding.md R41). -/
def spairInputs (pairs : List KnownPair) : List HostInput := pairs.map fun p => .cmd (encode (.spair p.1 p.2))

/-- The transactions of RECOVER are SINIT and the SPAIRs of the pairs (30_encoding.md R41). -/
theorem map_recoverExpansion (pairs : List KnownPair) :
    (recoverExpansion pairs).map (fun i => HostInput.cmd (encode i)) =
      .cmd (encode (.sinit 0#16)) :: spairInputs pairs := by
  rw [recoverExpansion, List.map_cons, List.map_map]
  rfl

/-- The search state `q` holds the set `cand`, its exact count, and the per-round counts `counts`, each in its entry of
RCNT and nothing beyond them (10_state.md R13 to R15). -/
structure Search.Holds (q : Search) (cand : CandMap) (counts : List Nat) : Prop where
  cand_eq : q.cand = cand
  count_toNat : q.count.toNat = candCount cand
  nrounds_toNat : q.nrounds.toNat = counts.length
  rcntAt_eq : ∀ i, rcntAt q i = counts[i]?.map (BitVec.ofNat 11)

theorem holds_freshSearch : freshSearch.Holds allCandidates [] where
  cand_eq := rfl
  count_toNat := candCount_allCandidates.symm
  nrounds_toNat := rfl
  rcntAt_eq := rcntAt_freshSearch

section
variable {q : Search} {cand : CandMap} {counts : List Nat}

/-- COUNT is 1 exactly when one candidate is left. -/
theorem Search.Holds.count_eq_one_iff (h : q.Holds cand counts) : q.count = 1#11 ↔ candCount cand = 1 := by
  rw [← h.count_toNat, ← BitVec.toNat_inj]
  rfl

/-- A round filters the set and appends its count to those recorded (44_key_search.md R76, R80). -/
theorem holds_searchRound (h : q.Holds cand counts) (pt ct : Block) (hroom : counts.length < Config.rcntDepth) :
    (searchRound pt ct q).Holds (filterCandidates cand pt ct)
      (counts ++ [candCount (filterCandidates cand pt ct)]) := by
  have hlen := h.nrounds_toNat
  rw [← hlen] at hroom
  constructor
  case cand_eq => rw [searchRound_cand, h.cand_eq]
  case count_toNat => rw [searchRound_count_toNat, h.cand_eq]
  case nrounds_toNat => rw [searchRound_nrounds_toNat pt ct hroom, hlen, List.length_append, List.length_singleton]
  case rcntAt_eq =>
    intro i
    rw [rcntAt_searchRound pt ct hroom, hlen, h.rcntAt_eq, searchRound_count, h.cand_eq]
    split_ifs with hi
    · rw [hi, List.getElem?_concat_length, Option.map_some]
    · obtain hlt | hgt := Nat.lt_or_gt_of_ne hi
      · rw [List.getElem?_append_left hlt]
      · rw [List.getElem?_eq_none hgt.le, List.getElem?_eq_none]
        simpa using hgt

end

/-- After the early exit the remaining pairs are presented and change nothing (44_key_search.md R82). -/
theorem run_spairInputs_of_count_one {q : Search} (hone : q.count = 1#11) (pairs : List KnownPair) {s : State}
    (hq : s.search = some q) (hin : s.inputs = spairInputs pairs) :
    ∃ t, core.run pairs.length s = .next t ∧ t.search = some q ∧ t.cipher = s.cipher := by
  induction pairs generalizing s with
  | nil => exact ⟨s, rfl, hq, rfl⟩
  | cons p rest ih =>
    obtain ⟨u, hstep, husearch, hucipher, huinputs⟩ := step_spair_of_count_one hq hin hone
    obtain ⟨t, hrun, hsearch, hcipher⟩ := ih husearch huinputs
    exact ⟨t, (run_succ_of_step hstep _).trans hrun, hsearch, hcipher.trans hucipher⟩

/-- One SPAIR per pair, from a search that goes on, ends with what `recoverFrom` computes from its set, the counts
recorded after those already there (44_key_search.md R77). -/
theorem run_spairInputs (pairs : List KnownPair) {s : State} {q : Search} {cand : CandMap} {counts : List Nat}
    (hq : s.search = some q) (hin : s.inputs = spairInputs pairs) (hholds : q.Holds cand counts)
    (hcount : candCount cand ≠ 1) (hroom : (counts ++ (recoverFrom cand pairs).2).length ≤ Config.rcntDepth) :
    ∃ t q', core.run pairs.length s = .next t ∧ t.search = some q' ∧ t.cipher = s.cipher ∧
      q'.Holds (recoverFrom cand pairs).1 (counts ++ (recoverFrom cand pairs).2) := by
  induction pairs generalizing s q cand counts with
  | nil => exact ⟨s, q, rfl, hq, rfl, (List.append_nil counts).symm ▸ hholds⟩
  | cons p rest ih =>
    obtain ⟨pt, ct⟩ := p
    have hlt : counts.length < Config.rcntDepth := by
      have hpos := recoverFrom_cons_length_pos cand (pt, ct) rest
      rw [List.length_append] at hroom
      omega
    have hround := holds_searchRound hholds pt ct hlt
    obtain ⟨u, hstep, husearch, hucipher, huinputs⟩ := step_spair_of_room hq hin
      (mt hholds.count_eq_one_iff.1 hcount) (hholds.nrounds_toNat.trans_lt hlt)
    by_cases hone : candCount (filterCandidates cand pt ct) = 1
    · obtain ⟨t, hrun, hsearch, hcipher⟩ := run_spairInputs_of_count_one (hround.count_eq_one_iff.2 hone) rest
        husearch huinputs
      refine ⟨t, _, (run_succ_of_step hstep _).trans hrun, hsearch, hcipher.trans hucipher, ?_⟩
      rw [recoverFrom_cons_of_one hone]
      rwa [hone] at hround
    · have hcounts : counts ++ (recoverFrom cand ((pt, ct) :: rest)).2 =
          counts ++ [candCount (filterCandidates cand pt ct)] ++ (recoverFrom (filterCandidates cand pt ct) rest).2 := by
        rw [recoverFrom_cons_of_ne_one hone]
        exact List.append_cons _ _ _
      rw [hcounts] at hroom ⊢
      obtain ⟨t, q', hrun, hsearch, hcipher, hfinal⟩ := ih husearch huinputs hround hone hroom
      refine ⟨t, q', (run_succ_of_step hstep _).trans hrun, hsearch, hcipher.trans hucipher, ?_⟩
      rwa [recoverFrom_cons_of_ne_one hone]

end Sys2Proof.Machine
end

section
/-! The statements of 44_key_search.md. -/

namespace Sys2Proof.Proofs

open Sys2Proof.Machine

/-- Settles O28: encryption to `ct` is decryption from it. -/
theorem oracleTestsEncryption : Obligations.OracleTestsEncryption := by
  unfold Obligations.OracleTestsEncryption
  exact fun _ _ _ _ => ⟨oracle_iff_encryptWith,
    (oracle_iff_encryptWith.trans encrypt_eq_iff_eq_decrypt).trans eq_comm⟩

/-- Settles O29: the fresh search SINIT leaves, read word by word. -/
theorem sinitStartsSearch : Obligations.SinitStartsSearch := by
  unfold Obligations.SinitStartsSearch
  refine ⟨by decide, fun _ s hrsv => withReserved_ne hrsv s _, fun s => ⟨_, freshSearch, exec_sinit_zero s, rfl,
    fun _ => getLsbD_freshSearch, rfl, rfl, rcntAt_freshSearch, ?_, ?_, ?_, fun i hi => ?_, fun w hw => ?_⟩⟩
  · rw [statusWord_outcome_sact, State.sact, respond_search, setSearch_search]
    decide
  · exact memRead_wordAddr _ .count
  · exact memRead_wordAddr _ .nrounds
  · exact (memRead_wordAddr _ (.rcnt ⟨i, hi⟩)).trans (readRcnt_freshSearch i)
  · refine (memRead_wordAddr _ (.candw ⟨w, hw⟩)).trans ?_
    exact congrArg Except.ok (candWord_allCandidates hw)

/-- Settles O30: the checks of SPAIR in their order, then the round with each element it writes. -/
theorem spairPerformsRound : Obligations.SpairPerformsRound := by
  unfold Obligations.SpairPerformsRound
  refine ⟨fun pt ct => ?_, fun pt ct _ hnone => exec_spair_of_search_none hnone pt ct,
    fun pt ct _ _ hq hone => exec_spair_of_count_one hq pt ct hone,
    fun pt ct _ _ hq hcount hfull => exec_spair_of_full hq pt ct hcount hfull,
    fun pt ct s q hq hcount hroom => ⟨searchRound pt ct q, ?_, fun k hk => ?_, searchRound_count_toNat pt ct q,
      searchRound_nrounds_toNat pt ct hroom, ?_, fun i hi => ?_, filterCandidates_eq_self⟩, encrypts_worked_pair_iff⟩
  · rw [encode_toNat, encodeArg, toNat_append_eq_mul_add]
    simp [opcode, Nat.mul_comm, Nat.add_assoc]
  · rw [exec_spair_of_room hq pt ct hcount hroom, BitVec.ofNat_toNat]
    rfl
  · rw [searchRound_cand, getLsbD_filterCandidates, decide_eq_true hk, Bool.true_and]
    rfl
  · rw [rcntAt_searchRound pt ct hroom, if_pos rfl]
  · rw [rcntAt_searchRound pt ct hroom, if_neg hi]

/-- Settles O31: the check for COUNT = 1 in SPAIR, which is the only one that answers so. -/
theorem earlyExitAtExactlyOne : Obligations.EarlyExitAtExactlyOne := by
  unfold Obligations.EarlyExitAtExactlyOne
  exact ⟨fun pt ct _ _ hq hone => exec_spair_of_count_one hq pt ct hone,
    fun _ _ t d hrun hrsp => spair_of_answers_doneNotConsumed ⟨t, d, hrun, hrsp⟩⟩

/-- Settles O32: a round filters the empty set to itself, and no other command but SINIT writes the search state. -/
theorem emptySetStillConsumes : Obligations.EmptySetStillConsumes := by
  unfold Obligations.EmptySetStillConsumes
  refine ⟨fun pt ct s q hq hempty hcount hroom => ?_, fun i s t q hrun hq hempty hsinit => ?_⟩
  · have hcand : (searchRound pt ct q).cand = 0#1024 := by
      rw [searchRound_cand, hempty, filterCandidates_zero]
    have hzero : (searchRound pt ct q).count = 0#11 := by
      rw [searchRound_count, hempty, filterCandidates_zero, candCount_zero]
    refine ⟨searchRound pt ct q, ?_, hcand, hzero, ?_, searchRound_nrounds_toNat pt ct hroom⟩
    · rw [exec_spair_of_room hq pt ct (by simp [hcount]) hroom, hzero]
      rfl
    · rw [rcntAt_searchRound pt ct hroom, if_pos rfl, hzero]
  · obtain ⟨-, hsearch⟩ | ⟨key, -, -, hsearch⟩ | ⟨hi, -⟩ | ⟨pt, ct, q', -, hq', -, hsearch⟩ := exec_writes hrun
    · exact ⟨q, hsearch.trans hq, hempty⟩
    · exact ⟨q, hsearch.trans hq, hempty⟩
    · exact absurd hi (hsinit _)
    · cases hq.symm.trans hq'
      exact ⟨_, hsearch, by rw [searchRound_cand, hempty, filterCandidates_zero]⟩

/-- Settles O34: SINIT leaves the fresh search, which holds all keys and no counts, and the SPAIRs then compute
`recoverFrom` of it. -/
theorem searchComputesRecoverKey : Obligations.SearchComputesRecoverKey := by
  unfold Obligations.SearchComputesRecoverKey
  refine ⟨fun pairs s hlen hin => ?_, rfl, fun _ _ _ rest h => recoverFrom_cons_of_one h rest,
    fun _ _ _ rest h => recoverFrom_cons_of_ne_one h rest⟩
  rw [map_recoverExpansion] at hin
  obtain ⟨u, hstep, husearch, hucipher, huinputs⟩ := step_sinit hin
  have hmany : candCount allCandidates ≠ 1 := by
    rw [candCount_allCandidates]
    decide
  obtain ⟨t, q, hrun, hsearch, hcipher, hfinal⟩ := run_spairInputs pairs husearch huinputs holds_freshSearch hmany
    hlen
  exact ⟨t, q, (run_succ_of_step hstep _).trans hrun, hsearch, hcipher.trans hucipher, hfinal.cand_eq,
    hfinal.nrounds_toNat, hfinal.rcntAt_eq⟩

end Sys2Proof.Proofs
end

section
/-! Laws of RD: a value or a refusal at the address of each word, the words KEYS, RCNT and CANDW, and that a command
asks nothing of the response channel (45_state_access.md R87, R88). -/

namespace Sys2Proof.Machine

/-- RD of an address that has no value refuses with the status that says why (45_state_access.md R87). -/
theorem exec_rd_of_memRead_error {s : State} {a : Addr} {st : Status} (h : memRead s a = .error st) :
    exec (.rd 0#8 a) s = .next (refuse st s) := by
  rw [exec, execRd, withReserved_zero, h]

section
variable {s : State} {name : WordName}

/-- RD at the address of a word that has a value answers it. -/
theorem exec_rd_of_readWord_ok {d : DataWord} (h : readWord s name = .ok d) :
    exec (.rd 0#8 (wordAddr name)) s = .next (respond .ok d s) :=
  exec_rd_of_memRead_ok ((memRead_wordAddr s name).trans h)

/-- RD at the address of a word that has no value refuses. -/
theorem exec_rd_of_readWord_error {st : Status} (h : readWord s name = .error st) :
    exec (.rd 0#8 (wordAddr name)) s = .next (refuse st s) :=
  exec_rd_of_memRead_error ((memRead_wordAddr s name).trans h)

end

/-- While SACT = 0 RD of a word of the search state answers ERR_NO_SEARCH (20_memory.md R23). -/
theorem exec_rd_of_search_none {s : State} (h : s.search = none) {a : Addr}
    (ha : 2 ≤ a.toNat ∧ a.toNat ≤ 4 ∨ 0x40 ≤ a.toNat ∧ a.toNat < 0xC0) :
    exec (.rd 0#8 a) s = .next (refuse .errNoSearch s) := by
  obtain ⟨name, hname, hstatus, hkeys⟩ := wordName_of_search_address ha
  exact exec_rd_of_memRead_error ((memRead_of_wordName hname s).trans (readWord_of_search_none h hstatus hkeys))

/-- RD of an address without a word answers ERR_BAD_ADDR (20_memory.md R23). -/
theorem exec_rd_of_unmapped {a : Addr} (ha : 5 ≤ a.toNat ∧ a.toNat < 0x40 ∨ 0xC0 ≤ a.toNat) (s : State) :
    exec (.rd 0#8 a) s = .next (refuse .errBadAddr s) :=
  exec_rd_of_memRead_error (memRead_of_unmapped (wordName_eq_none_iff.2 ha) s)

/-- The KEYS word as a number (20_memory.md R23, R24). -/
theorem keysWord_eq_ofNat (k1 k2 : Subkey) : keysWord ⟨k1, k2⟩ = BitVec.ofNat 16 (val k1 * 256 + val k2) :=
  subkeys_append_eq_ofNat k1 k2

section
variable {q : Search} {i : Nat}

theorem readRcnt_of_nrounds_le (h : q.nrounds.toNat ≤ i) : readRcnt q i = .error .errBadAddr := if_pos h

/-- A recorded count reads zero-extended (20_memory.md R23). -/
theorem readRcnt_of_rcntAt {n : Count} (h : i < q.nrounds.toNat) (hn : rcntAt q i = some n) :
    readRcnt q i = .ok (n.setWidth 16) := by
  rw [readRcnt, if_neg (Nat.not_le.2 h), hn]

end

/-- CANDW[w]: bit `b` is the candidate bit of `16 * w + b` (20_memory.md R24). -/
theorem getLsbD_candWord (cand : CandMap) (w : Nat) {b : Nat} (h : b < 16) :
    (candWord cand w).getLsbD b = cand.getLsbD (16 * w + b) := by
  rw [candWord, BitVec.getLsbD_extractLsb', decide_eq_true h, Bool.true_and]

section
variable {W : (State → State) → Prop} {s s' : State} {r r' : Result}

/-- RD has the same effect on two states of the same words, and needs no write for it. -/
theorem sameEffect_rd (hid : W id) (rsv : BitVec 8) (a : Addr) (hcipher : s.cipher = s'.cipher)
    (hsearch : s.search = s'.search) : SameEffect W s s' (exec (.rd rsv a) s) (exec (.rd rsv a) s') := by
  refine sameEffect_withReserved hid rsv ?_
  rw [memRead_congr hcipher hsearch a]
  cases memRead s' a with
  | ok d => exact sameEffect_respond hid .ok d
  | error st => exact sameEffect_refuse hid st

/-- A command of the same effect on a state before and after a response has the same result: its own response replaces
the earlier one. -/
theorem eq_of_sameEffect_respond {st : Status} {d : DataWord}
    (hW : ∀ write, W write → write (respond st d s) = respond st d (write s))
    (h : SameEffect W s (respond st d s) r r') : r' = r := by
  obtain ⟨st', d', write, hwrite, rfl, rfl⟩ := h
  rw [hW write hwrite]
  rfl

end

theorem CipherWrite.respond_comm {write : State → State} (h : CipherWrite write) (st : Status) (d : DataWord)
    (s : State) : write (respond st d s) = respond st d (write s) := by
  cases h with
  | nothing | subkeys => rfl

theorem SearchWrite.respond_comm {write : State → State} (h : SearchWrite write) (st : Status) (d : DataWord)
    (s : State) : write (respond st d s) = respond st d (write s) := by
  cases h with
  | nothing | search => rfl

/-- No command's result depends on the response already in the channel (00_scope.md R8). -/
theorem exec_respond (i : Instr) (st : Status) (d : DataWord) (s : State) : exec i (respond st d s) = exec i s := by
  have hcipher : s.cipher = (respond st d s).cipher := rfl
  have hsearch : s.search = (respond st d s).search := rfl
  have cipherCommand {r r' : Result} : SameEffect CipherWrite s (respond st d s) r r' → r' = r :=
    eq_of_sameEffect_respond fun _ hwrite => hwrite.respond_comm st d s
  have searchCommand {r r' : Result} : SameEffect SearchWrite s (respond st d s) r r' → r' = r :=
    eq_of_sameEffect_respond fun _ hwrite => hwrite.respond_comm st d s
  cases i with
  | ldkey rsv key => exact cipherCommand (sameEffect_ldkey rsv key s _)
  | enc rsv block => exact cipherCommand (sameEffect_enc rsv block hcipher)
  | dec rsv block => exact cipherCommand (sameEffect_dec rsv block hcipher)
  | sinit rsv => exact searchCommand (sameEffect_sinit rsv s _)
  | spair pt ct => exact searchCommand (sameEffect_spair pt ct hsearch)
  | rd rsv a => exact cipherCommand (sameEffect_rd .nothing rsv a hcipher hsearch)

/-- RD responds and does nothing else (45_state_access.md R88). -/
theorem exec_rd_responds (rsv : BitVec 8) (a : Addr) (s : State) :
    ∃ st d, exec (.rd rsv a) s = .next (respond st d s) := by
  obtain ⟨st, d, _, rfl, hrun, -⟩ := sameEffect_rd (W := (· = id)) (s := s) rfl rsv a rfl rfl
  exact ⟨st, d, hrun⟩

end Sys2Proof.Machine
end

section
/-! The statements of 45_state_access.md. -/

namespace Sys2Proof.Proofs

open Sys2Proof.Machine

/-- Settles O36: the checks of RD in their order, then the answer word by word of the address map. -/
theorem rdAnswersTheMap : Obligations.RdAnswersTheMap := by
  unfold Obligations.RdAnswersTheMap
  refine ⟨fun addr => ?_, fun _ _ s hrsv => withReserved_ne hrsv s _,
    fun s => exec_rd_of_readWord_ok (name := .status) rfl,
    fun _ hnone => exec_rd_of_readWord_error (name := .keys) (readKeys_none hnone), fun s k1 k2 hcipher => ?_,
    fun _ _ hnone haddr => exec_rd_of_search_none hnone haddr, fun s q hq => ?_,
    fun _ s haddr => exec_rd_of_unmapped haddr s⟩
  · rw [encode_toNat_of_block_operand rfl]
    simp [opcode]
  · rw [← keysWord_eq_ofNat]
    exact exec_rd_of_readWord_ok (name := .keys) (readKeys_some hcipher)
  · refine ⟨?_, ?_, exec_rd_of_readWord_ok (name := .skey) (readSearch_some hq _), fun i hi hle => ?_,
      fun i n hi hlt hn => ?_, fun w hw => ⟨candWord q.cand w, ?_, fun b hb => getLsbD_candWord q.cand w hb⟩⟩
    · rw [BitVec.ofNat_toNat]
      exact exec_rd_of_readWord_ok (name := .count) (readSearch_some hq _)
    · rw [BitVec.ofNat_toNat]
      exact exec_rd_of_readWord_ok (name := .nrounds) (readSearch_some hq _)
    · exact exec_rd_of_readWord_error (name := .rcnt ⟨i, hi⟩)
        ((readSearch_some hq _).trans (readRcnt_of_nrounds_le hle))
    · rw [BitVec.ofNat_toNat]
      exact exec_rd_of_readWord_ok (name := .rcnt ⟨i, hi⟩)
        ((readSearch_some hq _).trans (readRcnt_of_rcntAt hlt hn))
    · exact exec_rd_of_readWord_ok (name := .candw ⟨w, hw⟩) (readSearch_some hq _)

/-- Settles O37: RD responds and does nothing else, and no command depends on the response before it. -/
theorem rdChangesNothing : Obligations.RdChangesNothing := by
  unfold Obligations.RdChangesNothing
  intro rsv addr s t hrun
  obtain ⟨st, d, hresponds⟩ := exec_rd_responds rsv addr s
  cases hresponds.symm.trans hrun
  exact ⟨respond_cipher st d s, respond_search st d s, respond_inputs st d s, fun i => exec_respond i st d s,
    (exec_respond _ st d s).trans hrun⟩

end Sys2Proof.Proofs
end

section
/-! Laws of a refused word and of the status of every command: the checks of a command in their fixed order, and the
fields the checks read as numbers of the word (60_exceptions.md R89, R90, R93). -/

namespace Sys2Proof.Machine

section
variable {s t : State} {r : Response}

/-- A command answered with a status other than OK did nothing but refuse (60_exceptions.md R89). -/
theorem exec_eq_refuse_of_status_ne_ok {i : Instr} (hrun : exec i s = .next t) (hrsp : t.rsp = some r)
    (hst : r.status ≠ .ok) : t = refuse r.status s ∧ r.data = 0#16 := by
  obtain ⟨_, -, h⟩ | ⟨_, h, -⟩ | ⟨_, -, h⟩ | ⟨-, h⟩ | ⟨_, _, _, -, -, -, -, h⟩ := exec_cases i s
  all_goals
    cases h.symm.trans hrun
    cases hrsp
  · exact ⟨rfl, rfl⟩
  all_goals exact absurd rfl hst

/-- A command word answered with a status other than OK is taken and refused, whether or not it is a command
(60_exceptions.md R89). -/
theorem step_eq_refuse_of_status_ne_ok {w : CmdWord} {rest : List HostInput} (hin : s.inputs = .cmd w :: rest)
    (hrun : step s = .next t) (hrsp : t.rsp = some r) (hst : r.status ≠ .ok) :
    t = refuse r.status { s with inputs := rest } ∧ r.data = 0#16 := by
  cases hdec : decode w with
  | ok i => exact exec_eq_refuse_of_status_ne_ok ((step_of_decode_ok hin hdec).symm.trans hrun) hrsp hst
  | error e =>
    cases (step_of_decode_error hin hdec).symm.trans hrun
    cases hrsp
    exact ⟨rfl, rfl⟩

end

section
variable {s : State} {st : Status}

theorem answers_respond (st : Status) (d : DataWord) (s : State) : Answers st (.next (respond st d s)) :=
  ⟨_, d, rfl, rfl⟩

theorem answers_refuse (st : Status) (s : State) : Answers st (.next (refuse st s)) := answers_respond st _ s

/-- Step 2 of the fixed order: the reserved bits (60_exceptions.md R93). -/
theorem answers_withReserved {n : Nat} (rsv : BitVec n) {run : Result} (h : Answers st run) :
    Answers (if rsv ≠ 0#n then .errInvalidLength else st) (withReserved rsv s run) := by
  unfold withReserved
  split_ifs
  · exact answers_refuse _ s
  · exact h

/-- Step 4 of the fixed order, for a command that needs the subkeys (60_exceptions.md R93). -/
theorem answers_withCipher {run : CipherInstance → Result} (h : ∀ c, Answers st (run c)) :
    Answers (if s.keyv = false then .errNoKey else st) (withCipher s run) := by
  cases hc : s.cipher with
  | none => simpa [State.keyv, hc, withCipher_none hc] using answers_refuse .errNoKey s
  | some c => simpa [State.keyv, hc, withCipher_some hc] using h c

/-- Step 4 of the fixed order, for a command that needs the search state (60_exceptions.md R93). -/
theorem answers_withSearch {run : Search → Result} (h : ∀ q, s.search = some q → Answers st (run q)) :
    Answers (if s.sact = false then .errNoSearch else st) (withSearch s run) := by
  cases hq : s.search with
  | none => simpa [State.sact, hq, withSearch_none hq] using answers_refuse .errNoSearch s
  | some q => simpa [State.sact, hq, withSearch_some hq] using h q hq

end

section
variable (s : State)

theorem answers_exec_ldkey (rsv : BitVec 6) (key : Key) :
    Answers (if rsv ≠ 0#6 then .errInvalidLength else .ok) (exec (.ldkey rsv key) s) :=
  answers_withReserved rsv (answers_respond _ _ _)

theorem answers_exec_enc (rsv : BitVec 8) (block : Block) :
    Answers (if rsv ≠ 0#8 then .errInvalidLength else if s.keyv = false then .errNoKey else .ok)
      (exec (.enc rsv block) s) :=
  answers_withReserved rsv (answers_withCipher fun _ => answers_respond _ _ _)

theorem answers_exec_dec (rsv : BitVec 8) (block : Block) :
    Answers (if rsv ≠ 0#8 then .errInvalidLength else if s.keyv = false then .errNoKey else .ok)
      (exec (.dec rsv block) s) :=
  answers_withReserved rsv (answers_withCipher fun _ => answers_respond _ _ _)

theorem answers_exec_sinit (rsv : BitVec 16) :
    Answers (if rsv ≠ 0#16 then .errInvalidLength else .ok) (exec (.sinit rsv) s) :=
  answers_withReserved rsv (answers_respond _ _ _)

/-- The checks of SPAIR: no search, COUNT = 1, no room for a round (60_exceptions.md R93). -/
theorem answers_exec_spair (pt ct : Block) :
    Answers (if s.sact = false then .errNoSearch
      else if s.search.map (·.count.toNat) = some 1 then .doneNotConsumed
      else if s.search.map (·.nrounds.toNat) = some Config.rcntDepth then .errRcntFull
      else .ok) (exec (.spair pt ct) s) := by
  refine answers_withSearch fun q hq => ?_
  have hone : q.count.toNat = 1 ↔ q.count = 1#11 := BitVec.toNat_inj (y := 1#11)
  simp only [hq, Option.map_some, Option.some.injEq, hone]
  split_ifs
  · exact answers_refuse _ s
  · exact answers_refuse _ s
  · exact answers_respond _ _ _

end

/-- The status RD answers for what a read gives (45_state_access.md R87). -/
def readStatus : Except Status DataWord → Status
  | .ok _ => .ok
  | .error st => st

@[simp] theorem readStatus_ok (d : DataWord) : readStatus (.ok d) = .ok := rfl

@[simp] theorem readStatus_error (st : Status) : readStatus (.error st) = st := rfl

theorem answers_exec_rd (rsv : BitVec 8) (a : Addr) (s : State) :
    Answers (if rsv ≠ 0#8 then .errInvalidLength else readStatus (memRead s a)) (exec (.rd rsv a) s) := by
  refine answers_withReserved rsv ?_
  cases memRead s a with
  | ok d => exact answers_respond .ok d s
  | error st => exact answers_refuse st s

theorem readStatus_readKeys (s : State) : readStatus (readKeys s) = if s.keyv = false then .errNoKey else .ok := by
  cases hc : s.cipher with
  | none => simp [readKeys_none hc, State.keyv, hc]
  | some c => simp [readKeys_some hc, State.keyv, hc]

theorem readStatus_readSearch {s : State} {st : Status} {read : Search → Except Status DataWord}
    (h : ∀ q, s.search = some q → readStatus (read q) = st) :
    readStatus (readSearch s read) = if s.sact = false then .errNoSearch else st := by
  cases hq : s.search with
  | none => simp [readSearch_none hq, State.sact, hq]
  | some q => simp [readSearch_some hq, State.sact, hq, h q hq]

/-- Every word of the search state but an RCNT entry reads as soon as a search exists (20_memory.md R23). -/
theorem readStatus_readSearch_ok (s : State) (value : Search → DataWord) :
    readStatus (readSearch s fun q => .ok (value q)) = if s.sact = false then .errNoSearch else .ok :=
  readStatus_readSearch fun _ _ => rfl

/-- Where the entries below NROUNDS hold a value, the index alone decides whether an RCNT entry reads. -/
theorem readStatus_readRcnt {q : Search} {i : Nat} (h : (rcntAt q i).isSome = true ↔ i < q.nrounds.toNat) :
    readStatus (readRcnt q i) = if q.nrounds.toNat ≤ i then .errBadAddr else .ok := by
  split_ifs with hle
  · rw [readRcnt_of_nrounds_le hle, readStatus_error]
  · obtain ⟨n, hn⟩ := Option.isSome_iff_exists.1 (h.2 (Nat.not_le.1 hle))
    rw [readRcnt_of_rcntAt (Nat.not_le.1 hle) hn, readStatus_ok]

/-- The checks of a read in their fixed order: the address, the subkeys, the search state, the RCNT index
(60_exceptions.md R93). -/
theorem readStatus_memRead {s : State} (hrec : Safety.RoundsRecorded s) (a : Addr) :
    readStatus (memRead s a) =
      if 5 ≤ a.toNat ∧ a.toNat < 0x40 ∨ 0xC0 ≤ a.toNat then .errBadAddr
      else if a.toNat = 1 ∧ s.keyv = false then .errNoKey
      else if 2 ≤ a.toNat ∧ s.sact = false then .errNoSearch
      else if 0x40 ≤ a.toNat ∧ a.toNat < 0x80 ∧ (s.search.map (·.nrounds.toNat)).getD 0 ≤ a.toNat - 0x40 then .errBadAddr
      else .ok := by
  unfold memRead
  fun_cases wordName a
  case case1 h =>
    have ha : a.toNat = 0 := h
    simp [ha, readWord]
  case case2 h =>
    have ha : a.toNat = 1 := h
    simp [ha, readWord, readStatus_readKeys]
  case case3 h | case4 h | case5 h =>
    have ha : a.toNat = _ := h
    simp [ha, readWord, readStatus_readSearch_ok]
  case case6 h =>
    obtain ⟨hlow, hhigh⟩ : 0x40 ≤ a.toNat ∧ a.toNat < 0x80 := h
    rw [if_neg (by omega), if_neg (by omega)]
    simp only [hlow, hhigh, Nat.le_trans (by decide : 2 ≤ 0x40) hlow, true_and]
    refine readStatus_readSearch fun q hq => ?_
    rw [hq]
    exact readStatus_readRcnt (hrec q hq _)
  case case7 h =>
    obtain ⟨hlow, hhigh⟩ : 0x80 ≤ a.toNat ∧ a.toNat < 0xC0 := h
    rw [if_neg (by omega), if_neg (by omega)]
    simp only [Nat.not_lt.2 hlow, Nat.le_trans (by decide : 2 ≤ 0x80) hlow, true_and, false_and, and_false, if_false]
    exact readStatus_readSearch_ok s _
  case case8 => rw [if_pos (by omega), readStatus_error]

theorem argField_toNat (w : CmdWord) : (argField w).toNat = w.toNat % 65536 := by
  rw [argField, BitVec.extractLsb'_toNat, Nat.shiftRight_zero]

theorem argLow_toNat (arg : BitVec 16) : (argLow arg).toNat = arg.toNat % 256 := by
  rw [argLow, BitVec.extractLsb'_toNat, Nat.shiftRight_zero]

/-- Format K: a reserved bit is set from the value 2^10 up (30_encoding.md R33). -/
theorem rsvK_ne_zero_iff (arg : BitVec 16) : rsvK arg ≠ 0#6 ↔ 1024 ≤ arg.toNat := by
  have harg := arg.isLt
  rw [← BitVec.toNat_ne_iff_ne, rsvK, BitVec.extractLsb'_toNat, Nat.shiftRight_eq_div_pow, BitVec.toNat_zero]
  omega

/-- Formats B and A: a reserved bit is set from the value 2^8 up (30_encoding.md R33). -/
theorem argHigh_ne_zero_iff (arg : BitVec 16) : argHigh arg ≠ 0#8 ↔ 256 ≤ arg.toNat := by
  have harg := arg.isLt
  rw [← BitVec.toNat_ne_iff_ne, argHigh, BitVec.extractLsb'_toNat, Nat.shiftRight_eq_div_pow, BitVec.toNat_zero]
  omega

/-- What a word decodes to, by its `op` as a number (30_encoding.md R35, R36). -/
theorem decode_cases (w : CmdWord) :
    ((w.toNat / 65536 = 0 ∨ 7 ≤ w.toNat / 65536) ∧ decode w = .error (.illegalCommand (opField w))) ∨
    (w.toNat / 65536 = 1 ∧ decode w = .ok (.ldkey (rsvK (argField w)) (keyOperand (argField w)))) ∨
    (w.toNat / 65536 = 2 ∧ decode w = .ok (.enc (argHigh (argField w)) (argLow (argField w)))) ∨
    (w.toNat / 65536 = 3 ∧ decode w = .ok (.dec (argHigh (argField w)) (argLow (argField w)))) ∨
    (w.toNat / 65536 = 4 ∧ decode w = .ok (.sinit (argField w))) ∨
    (w.toNat / 65536 = 5 ∧ decode w = .ok (.spair (argHigh (argField w)) (argLow (argField w)))) ∨
    (w.toNat / 65536 = 6 ∧ decode w = .ok (.rd (argHigh (argField w)) (argLow (argField w)))) := by
  obtain hop | hop | hop | hop | hop | hop | hop : (w.toNat / 65536 = 0 ∨ 7 ≤ w.toNat / 65536) ∨
      w.toNat / 65536 = 1 ∨ w.toNat / 65536 = 2 ∨ w.toNat / 65536 = 3 ∨ w.toNat / 65536 = 4 ∨
      w.toNat / 65536 = 5 ∨ w.toNat / 65536 = 6 := by omega
  · exact .inl ⟨hop, decode_of_illegal_op hop⟩
  all_goals simp [decode, opField_toNat, hop]

end Sys2Proof.Machine
end

section
/-! The statements of 60_exceptions.md. -/

namespace Sys2Proof.Proofs

open Sys2Proof.Machine

/-- Settles O44: a refused word is only refused, and no command's result depends on the response before it. -/
theorem refusalLeavesNoTrace : Obligations.RefusalLeavesNoTrace := by
  unfold Obligations.RefusalLeavesNoTrace
  intro s t w rest r hin hrun hrsp hst
  obtain ⟨rfl, hdata⟩ := step_eq_refuse_of_status_ne_ok hin hrun hrsp hst
  exact ⟨hdata, rfl, rfl, rfl, fun i => exec_respond i _ _ _⟩

/-- Settles O45: the checks of the command the word decodes to, and a status other than OK is a refusal. -/
theorem checksInFixedOrder : Obligations.ChecksInFixedOrder := by
  unfold Obligations.ChecksInFixedOrder
  intro s w rest hrec hin op arg count nrounds status
  suffices hstatus : Answers status (step s) by
    obtain ⟨t, d, hrun, hrsp⟩ := hstatus
    refine ⟨t, d, hrun, hrsp, fun hst => ?_⟩
    obtain ⟨ht, hd⟩ := step_eq_refuse_of_status_ne_ok hin hrun hrsp hst
    exact ⟨hd, ht⟩
  have hrec' : Safety.RoundsRecorded { s with inputs := rest } := hrec
  have hkeyv : State.keyv { s with inputs := rest } = s.keyv := rfl
  have hsact : State.sact { s with inputs := rest } = s.sact := rfl
  obtain ⟨hop, hdec⟩ | ⟨hop, hdec⟩ | ⟨hop, hdec⟩ | ⟨hop, hdec⟩ | ⟨hop, hdec⟩ | ⟨hop, hdec⟩ | ⟨hop, hdec⟩ :=
    decode_cases w
  · rw [step_of_decode_error hin hdec]
    simpa only [status, op, if_pos hop] using answers_refuse _ _
  all_goals rw [step_of_decode_ok hin hdec]
  · simpa [status, op, arg, hop, argField_toNat, rsvK_ne_zero_iff] using
      answers_exec_ldkey { s with inputs := rest } (rsvK (argField w)) (keyOperand (argField w))
  · simpa [status, op, arg, hop, argField_toNat, hkeyv, argHigh_ne_zero_iff] using
      answers_exec_enc { s with inputs := rest } (argHigh (argField w)) (argLow (argField w))
  · simpa [status, op, arg, hop, argField_toNat, hkeyv, argHigh_ne_zero_iff] using
      answers_exec_dec { s with inputs := rest } (argHigh (argField w)) (argLow (argField w))
  · simpa [status, op, arg, hop, argField_toNat, ← BitVec.toNat_inj] using
      answers_exec_sinit { s with inputs := rest } (argField w)
  · simpa [status, op, count, nrounds, hop, hsact] using
      answers_exec_spair { s with inputs := rest } (argHigh (argField w)) (argLow (argField w))
  · have h := answers_exec_rd (argHigh (argField w)) (argLow (argField w)) { s with inputs := rest }
    rw [readStatus_memRead hrec'] at h
    simp only [argHigh_ne_zero_iff, argLow_toNat, argField_toNat] at h
    by_cases hrsv : 256 ≤ w.toNat % 65536
    · simpa [status, op, arg, hop, hrsv] using h
    · rw [Nat.mod_eq_of_lt (Nat.not_le.1 hrsv)] at h
      simpa [status, op, arg, nrounds, hop, hkeyv, hsact, hrsv] using h

end Sys2Proof.Proofs
end

section
/-! Laws of decoding against encoding: the fields of a word put together again, and the decoder on every command's word
(30_encoding.md R32, R33, R35). -/

namespace Sys2Proof.Machine

theorem rsvK_append (rsv : BitVec 6) (key : Key) : rsvK (rsv ++ key) = rsv := BitVec.extractLsb'_append_eq_left

theorem keyOperand_append (rsv : BitVec 6) (key : Key) : keyOperand (rsv ++ key) = key :=
  BitVec.extractLsb'_append_eq_right

@[simp] theorem opField_encode (i : Instr) : opField (encode i) = opcode i := Laws.opField_append _ _

@[simp] theorem argField_encode (i : Instr) : argField (encode i) = encodeArg i := argField_append _ _

/-- `op` selects the constructor, and the fields of `arg` are those it was laid out from (30_encoding.md R35). -/
theorem decode_encode (i : Instr) : decode (encode i) = .ok i := by
  rw [decode, opField_encode, argField_encode]
  cases i with
  | ldkey => simp [opcode, encodeArg, rsvK_append, keyOperand_append]
  | enc | dec | spair | rd => simp [opcode, encodeArg, argHigh_append, argLow_append]
  | sinit => rfl

/-- The two fields of a word are all of it (30_encoding.md R32). -/
theorem opField_append_argField (w : CmdWord) : opField w ++ argField w = w :=
  (BitVec.extractLsb'_append_extractLsb'_eq_extractLsb' rfl).trans BitVec.extractLsb'_eq_self

theorem rsvK_append_keyOperand (arg : BitVec 16) : rsvK arg ++ keyOperand arg = arg :=
  (BitVec.extractLsb'_append_extractLsb'_eq_extractLsb' rfl).trans BitVec.extractLsb'_eq_self

theorem argHigh_append_argLow (arg : BitVec 16) : argHigh arg ++ argLow arg = arg :=
  (BitVec.extractLsb'_append_extractLsb'_eq_extractLsb' rfl).trans BitVec.extractLsb'_eq_self

/-- A command whose `op` and `arg` are a word's has that word. -/
theorem encode_eq_of_fields {w : CmdWord} {i : Instr} (hop : w.toNat / 65536 = (opcode i).toNat)
    (harg : encodeArg i = argField w) : encode i = w := by
  rw [← opField_toNat, BitVec.toNat_inj] at hop
  rw [encode, harg, ← hop, opField_append_argField]

/-- A word that selects a command is that command's word: the decoder drops no bit (30_encoding.md R35). -/
theorem encode_of_decode {w : CmdWord} {i : Instr} (h : decode w = .ok i) : encode i = w := by
  obtain ⟨-, hdec⟩ | ⟨hop, hdec⟩ | ⟨hop, hdec⟩ | ⟨hop, hdec⟩ | ⟨hop, hdec⟩ | ⟨hop, hdec⟩ | ⟨hop, hdec⟩ := decode_cases w
  all_goals cases hdec.symm.trans h
  · exact encode_eq_of_fields hop (rsvK_append_keyOperand _)
  · exact encode_eq_of_fields hop (argHigh_append_argLow _)
  · exact encode_eq_of_fields hop (argHigh_append_argLow _)
  · exact encode_eq_of_fields hop rfl
  · exact encode_eq_of_fields hop (argHigh_append_argLow _)
  · exact encode_eq_of_fields hop (argHigh_append_argLow _)

end Sys2Proof.Machine
end

section
/-! The port's transactions as equations of `step`, and a table word presented as a transaction (70_reset_and_hazards.md
R100, R102, R110). -/

namespace Sys2Proof.Machine

section
variable {s : State} {rest : List HostInput}

/-- With nothing presented the block is idle (70_reset_and_hazards.md R110). -/
theorem step_of_no_input (hin : s.inputs = []) : step s = .next (noCommand s) := by
  rw [step, nextInput, hin]

/-- A word that is not accepted is taken off the list and has no effect (70_reset_and_hazards.md R102). -/
theorem step_of_ignored {w : CmdWord} (hin : s.inputs = .ignored w :: rest) :
    step s = .next (noCommand { s with inputs := rest }) := by
  rw [step, nextInput, hin]

/-- A reset is taken off the list with the command it abandons (70_reset_and_hazards.md R100). -/
theorem step_of_rst {inProgress : Option CmdWord} (hin : s.inputs = .rst inProgress :: rest) :
    step s = .next (applyReset { s with inputs := rest }) := by
  rw [step, nextInput, hin]

end

/-- A table word of 20 bits or more holds every command word (30_encoding.md R37). -/
theorem tableWord_toNat {nbits : Nat} (h : 20 ≤ nbits) (w : CmdWord) : tableWord nbits w.toNat = some w := by
  have hfits : w.toNat < 2 ^ nbits := w.isLt.trans_le (Nat.pow_le_pow_right Nat.two_pos h)
  rw [tableWord, Nat.mod_eq_of_lt hfits, if_pos w.isLt, BitVec.ofNat_toNat, BitVec.setWidth_eq]

/-- A command's word placed for the next step is presented at the port (70_reset_and_hazards.md R102). -/
theorem withFetchWord_encode {nbits : Nat} (h : 20 ≤ nbits) (i : Instr) (s : State) :
    s.withFetchWord nbits (encode i).toNat = presentWord (encode i) s := by
  rw [State.withFetchWord, tableWord_toNat h]

/-- A presented command is performed on the state it was presented to (70_reset_and_hazards.md R103). -/
theorem step_presentWord_encode (i : Instr) (s : State) : step (presentWord (encode i) s) = exec i s :=
  step_of_decode_ok (presentWord_inputs _ s) (decode_encode i)

end Sys2Proof.Machine
end

section
/-! Laws of the assembler's key and block operands (30_encoding.md R40). -/

namespace Sys2Proof.Machine

/-- The bit that character `i` of a binary string writes at position `i`, 1-indexed (00_scope.md R6). -/
def charPos (cs : List Char) (i : Nat) : Bool := cs[i - 1]? == some '1'

theorem charBit_eq_ok_iff {c : Char} {b : Bool} :
    charBit c = .ok b ↔ (c = '0' ∨ c = '1') ∧ b = (c == '1') := by
  fun_cases charBit c <;> simp_all [eq_comm]

theorem positionsValue_congr {n : Nat} {f g : Nat → Bool} (h : ∀ i, 1 ≤ i → i ≤ n → f i = g i) :
    positionsValue n f = positionsValue n g := by
  induction n with
  | zero => rfl
  | succ n ih =>
    rw [positionsValue, positionsValue, ih fun i h1 hn => h i h1 (by omega), h (n + 1) (by omega) le_rfl]

/-- A string is read character by character from the left: the last one gives the least significant bit. -/
theorem charsValue_concat_eq_ok_iff {cs : List Char} {c : Char} {acc v : Nat} :
    charsValue (cs ++ [c]) acc = .ok v ↔
      ∃ u b, charsValue cs acc = .ok u ∧ charBit c = .ok b ∧ v = 2 * u + b.toNat := by
  induction cs generalizing acc with
  | nil =>
    cases hc : charBit c <;> simp [charsValue, hc, eq_comm]
  | cons d cs ih =>
    rw [List.cons_append, charsValue, charsValue]
    cases charBit d with
    | ok b => exact ih
    | error e => simp

/-- One more character doubles the value and adds its bit (00_scope.md R6). -/
theorem positionsValue_charPos_concat (cs : List Char) (c : Char) :
    positionsValue (cs ++ [c]).length (charPos (cs ++ [c])) =
      2 * positionsValue cs.length (charPos cs) + (c == '1').toNat := by
  have hinit : positionsValue cs.length (charPos (cs ++ [c])) = positionsValue cs.length (charPos cs) :=
    positionsValue_congr fun i h1 hn => by rw [charPos, charPos, List.getElem?_append_left (by omega)]
  have hlast : charPos (cs ++ [c]) (cs.length + 1) = (c == '1') := by
    rw [charPos, Nat.add_sub_cancel, List.getElem?_concat_length, Option.some_beq_some]
  rw [List.length_append, List.length_singleton, positionsValue, hinit, hlast]

/-- A string has a value exactly when its characters are `0` and `1`, and then its bits are its positions
(00_scope.md R6). -/
theorem charsValue_eq_ok_iff {cs : List Char} {v : Nat} :
    charsValue cs 0 = .ok v ↔ (∀ c ∈ cs, c = '0' ∨ c = '1') ∧ v = positionsValue cs.length (charPos cs) := by
  induction cs using List.reverseRecOn generalizing v with
  | nil => simp [charsValue, positionsValue, eq_comm]
  | append_singleton cs c ih =>
    rw [charsValue_concat_eq_ok_iff, positionsValue_charPos_concat, List.forall_mem_append, List.forall_mem_singleton]
    constructor
    · rintro ⟨u, b, hu, hb, rfl⟩
      obtain ⟨hcs, rfl⟩ := ih.1 hu
      obtain ⟨hc, rfl⟩ := charBit_eq_ok_iff.1 hb
      exact ⟨⟨hcs, hc⟩, rfl⟩
    · rintro ⟨⟨hcs, hc⟩, rfl⟩
      exact ⟨_, _, ih.2 ⟨hcs, rfl⟩, charBit_eq_ok_iff.2 ⟨hc, rfl⟩, rfl⟩

/-- The sequence of `n` bits with position `i + 1` given by `f` (00_scope.md R6). -/
theorem eq_ofPositions_iff {n : Nat} {v : BitVec n} {f : Nat → Bool} :
    v = ofPositions n f ↔ ∀ i, i < n → pos v (i + 1) = f (i + 1) where
  mp h i hi := by rw [h, pos_ofPositions f (by omega) hi]
  mpr h := eq_of_pos fun i h1 hn => by
    rw [pos_ofPositions f h1 hn, ← Nat.sub_add_cancel h1]
    exact h (i - 1) (by omega)

section
variable {n : Nat} {v : BitVec n}

/-- An operand written as characters (30_encoding.md R40). -/
theorem bitsOperand_chars_eq_ok_iff {cs : List Char} :
    bitsOperand n (.chars cs) = .ok v ↔
      cs.length = n ∧ (∀ c ∈ cs, c = '0' ∨ c = '1') ∧ v = ofPositions n (charPos cs) := by
  rw [bitsOperand]
  cases hvalue : charsValue cs 0 with
  | error e =>
    have hbad : ¬ ∀ c ∈ cs, c = '0' ∨ c = '1' := fun hcs => by
      cases hvalue.symm.trans (charsValue_eq_ok_iff.2 ⟨hcs, rfl⟩)
    simp [hbad]
  | ok u =>
    obtain ⟨hcs, rfl⟩ := charsValue_eq_ok_iff.1 hvalue
    by_cases hlen : cs.length = n
    · subst hlen
      simp only [if_pos, Except.ok.injEq, true_and, eq_true hcs]
      exact eq_comm
    · simp [hlen]

/-- An operand written as a number (30_encoding.md R40). -/
theorem bitsOperand_number_eq_ok_iff {m : Nat} : bitsOperand n (.number m) = .ok v ↔ m < 2 ^ n ∧ v.toNat = m := by
  rw [bitsOperand]
  split_ifs with hm
  · simp only [Except.ok.injEq, eq_true hm, true_and]
    constructor
    · rintro rfl
      rw [BitVec.toNat_ofNat, Nat.mod_eq_of_lt hm]
    · rintro rfl
      rw [BitVec.ofNat_toNat, BitVec.setWidth_eq]
  · simp [hm]

end

end Sys2Proof.Machine
end

section
/-! The statements of 30_encoding.md and of the port's words. -/

namespace Sys2Proof.Proofs

open Sys2Proof.Machine

/-- Settles O1: fixed words, evaluated. -/
theorem specWordsDecode : Obligations.SpecWordsDecode := by
  unfold Obligations.SpecWordsDecode
  decide

/-- Settles O2: `op` and each field of `arg` are extracted from where they were put. -/
theorem decodeOfEncode : Obligations.DecodeOfEncode := by
  unfold Obligations.DecodeOfEncode
  exact decode_encode

/-- Settles O3: the extracted fields put together again are the word. -/
theorem encodeOfDecode : Obligations.EncodeOfDecode := by
  unfold Obligations.EncodeOfDecode
  exact fun _ _ => encode_of_decode

/-- Settles O4: the word's number is the first clause of each command's complete statement. -/
theorem wordIsBasePlusOperands : Obligations.WordIsBasePlusOperands := by
  unfold Obligations.WordIsBasePlusOperands
  obtain ⟨hldkey, -⟩ := ldkeyConstructsInstance
  obtain ⟨henc, -⟩ := encAnswersCiphertext
  obtain ⟨hdec, -⟩ := decAnswersPlaintext
  obtain ⟨hsinit, -⟩ := sinitStartsSearch
  obtain ⟨hspair, -⟩ := spairPerformsRound
  obtain ⟨hrd, -⟩ := rdAnswersTheMap
  exact ⟨hldkey, henc, hdec, hsinit, hspair, hrd⟩

/-- Settles O5: a string assembles to the sequence of its characters' bits, a number to the sequence of its value. -/
theorem assemblerOperandForms : Obligations.AssemblerOperandForms := by
  unfold Obligations.AssemblerOperandForms
  refine ⟨fun n cs v => ?_, fun _ _ _ => bitsOperand_number_eq_ok_iff⟩
  rw [bitsOperand_chars_eq_ok_iff, eq_ofPositions_iff]
  rfl

/-- Settles O6: an accepted word is decoded and performed, and the word of a command decodes to that command. -/
theorem stepRunsDecodedCommand : Obligations.StepRunsDecodedCommand := by
  unfold Obligations.StepRunsDecodedCommand
  refine ⟨fun _ _ _ _ hin hdec => step_of_decode_ok hin hdec, fun s i nbits hbits => ?_⟩
  rw [withFetchWord_encode hbits, step_presentWord_encode]

/-- Settles O8: a step without a command empties the response channel and nothing else. -/
theorem idleAndIgnoredWords : Obligations.IdleAndIgnoredWords := by
  unfold Obligations.IdleAndIgnoredWords
  exact ⟨fun _ hin => step_of_no_input hin, fun _ _ _ hin => step_of_ignored hin⟩

end Sys2Proof.Proofs
end

section
/-! Laws of what a command and a step leave: the transactions, the search state with the room a round had, and the
fields a step without a command keeps or clears (10_state.md R10, R12, 70_reset_and_hazards.md R100, R106). -/

namespace Sys2Proof.Machine

section
variable {i : Instr} {s t : State}

/-- A command is answered and takes no further transaction (70_reset_and_hazards.md R106). -/
theorem exec_answered_inputs (i : Instr) (s : State) :
    ∃ t r, exec i s = .next t ∧ t.rsp = some r ∧ t.inputs = s.inputs := by
  obtain ⟨_, -, hrun⟩ | ⟨_, hrun, -⟩ | ⟨_, -, hrun⟩ | ⟨-, hrun⟩ | ⟨_, _, _, -, -, -, -, hrun⟩ := exec_cases i s
  all_goals exact ⟨_, _, hrun, rfl, rfl⟩

theorem exec_inputs (h : exec i s = .next t) : t.inputs = s.inputs := by
  obtain ⟨u, r, hrun, -, hinputs⟩ := exec_answered_inputs i s
  cases hrun.symm.trans h
  exact hinputs

/-- The search state a command leaves: the one before, a fresh one, or the one before after a round there was room for
(44_key_search.md R79, R80). -/
theorem exec_search (h : exec i s = .next t) :
    t.search = s.search ∨ (i = .sinit 0#16 ∧ t.search = some freshSearch) ∨
    ∃ pt ct q, i = .spair pt ct ∧ s.search = some q ∧ q.nrounds.toNat ≠ Config.rcntDepth ∧
      t.search = some (searchRound pt ct q) := by
  obtain ⟨_, -, hrun⟩ | ⟨_, hrun, -⟩ | ⟨_, -, hrun⟩ | ⟨hi, hrun⟩ | ⟨pt, ct, q, hi, hq, -, hroom, hrun⟩ :=
    exec_cases i s
  all_goals cases hrun.symm.trans h
  · exact .inl rfl
  · exact .inl rfl
  · exact .inl rfl
  · exact .inr (.inl ⟨hi, rfl⟩)
  · exact .inr (.inr ⟨pt, ct, q, hi, hq, hroom, rfl⟩)

/-- Every step has a next state, takes one transaction, and answers exactly the command words (70_reset_and_hazards.md
R102, R106, R110). -/
theorem step_answers_cmd_alone (s : State) :
    ∃ t, step s = .next t ∧ t.inputs = s.inputs.tail ∧
      (t.rsp.isSome = true ↔ ∃ w rest, s.inputs = .cmd w :: rest) := by
  obtain ⟨hin, hrun⟩ | ⟨w, rest, hin, hrun⟩ | ⟨p, rest, hin, hrun⟩ | ⟨w, rest, i, hin, -, hrun⟩ |
    ⟨w, rest, e, hin, -, hrun⟩ := step_cases s
  · exact ⟨_, hrun, by simp [hin], by simp [hin]⟩
  · exact ⟨_, hrun, by simp [hin], by simp [hin]⟩
  · exact ⟨_, hrun, by simp [hin], by simp [hin]⟩
  · obtain ⟨t, r, hexec, hrsp, hinputs⟩ := exec_answered_inputs i { s with inputs := rest }
    exact ⟨t, hrun.trans hexec, by simp [hin, hinputs], by simp [hin, hrsp]⟩
  · exact ⟨_, hrun, by simp [hin], by simp [hin]⟩

/-- `k` steps take `k` transactions and do not stop (70_reset_and_hazards.md section 3). -/
theorem run_next (k : Nat) (s : State) : ∃ t, core.run k s = .next t ∧ t.inputs = s.inputs.drop k := by
  induction k generalizing s with
  | zero => exact ⟨s, rfl, rfl⟩
  | succ k ih =>
    obtain ⟨u, hstep, huinputs, -⟩ := step_answers_cmd_alone s
    obtain ⟨t, hrun, hinputs⟩ := ih u
    exact ⟨t, (run_succ_of_step hstep k).trans hrun, by rw [hinputs, huinputs, List.drop_tail]⟩

/-- No command clears KEYV (10_state.md R11). -/
theorem exec_keyv (h : exec i s = .next t) (hkeyv : s.keyv = true) : t.keyv = true := by
  unfold State.keyv at hkeyv ⊢
  obtain ⟨hcipher, -⟩ | ⟨key, -, hcipher, -⟩ | ⟨-, hcipher, -⟩ | ⟨_, _, _, -, -, hcipher, -⟩ := exec_writes h
  · rwa [hcipher]
  · rw [hcipher, Option.isSome_some]
  · rwa [hcipher]
  · rwa [hcipher]

/-- No command clears SACT (10_state.md R12). -/
theorem exec_sact (h : exec i s = .next t) (hsact : s.sact = true) : t.sact = true := by
  unfold State.sact at hsact ⊢
  obtain hsearch | ⟨-, hsearch⟩ | ⟨_, _, _, -, -, -, hsearch⟩ := exec_search h
  · rwa [hsearch]
  · rw [hsearch, Option.isSome_some]
  · rw [hsearch, Option.isSome_some]

/-- A step that is no reset keeps KEYV and SACT set (70_reset_and_hazards.md R100). -/
theorem step_is_reset_or_keeps_keyv_sact (h : step s = .next t) :
    (∃ p rest, s.inputs = .rst p :: rest) ∨ ((s.keyv = true → t.keyv = true) ∧ (s.sact = true → t.sact = true)) := by
  obtain ⟨hcipher, hsearch⟩ | hreset | ⟨w, rest, i, -, -, hexec⟩ := step_frame h
  · refine .inr ⟨fun hkeyv => ?_, fun hsact => ?_⟩
    · rwa [State.keyv, hcipher]
    · rwa [State.sact, hsearch]
  · exact .inl hreset
  · exact .inr ⟨fun hkeyv => exec_keyv hexec hkeyv, fun hsact => exec_sact hexec hsact⟩

end

end Sys2Proof.Machine
end

section
/-! The invariants of the search state, as one predicate of a search invocation that SINIT establishes and a round
keeps (10_state.md R14, R15). -/

namespace Sys2Proof.Machine

open Sys2Proof.Safety

/-- What `Safety.Inv` says of a search invocation (10_state.md R14, R15). -/
structure Search.Sound (q : Search) : Prop where
  count_toNat : q.count.toNat = candCount q.cand
  nrounds_le : q.nrounds.toNat ≤ Config.rcntDepth
  recorded_iff : ∀ i, (rcntAt q i).isSome = true ↔ i < q.nrounds.toNat
  descend : ∀ i j m n, i ≤ j → rcntAt q i = some m → rcntAt q j = some n → n.toNat ≤ m.toNat ∧ m.toNat ≤ 1024
  last : (q.nrounds = 0#7 → q.count = 1024#11) ∧
    (0 < q.nrounds.toNat → rcntAt q (q.nrounds.toNat - 1) = some q.count)

/-- The invariants speak of the cipher instance, the search state and the response, each on its own. -/
theorem inv_iff {s : State} :
    Inv s ↔ SubkeysDerived s ∧ (∀ q, s.search = some q → q.Sound) ∧ RefusalsCarryNoData s where
  mp h := by
    refine ⟨h.subkeysDerived, fun q hq => ?_, h.refusalsCarryNoData⟩
    exact {
      count_toNat := h.countExact q hq
      nrounds_le := h.roundsBounded q hq
      recorded_iff := h.roundsRecorded q hq
      descend := h.countsDescend q hq
      last := h.countIsLastRecorded q hq }
  mpr := fun ⟨hcipher, hsound, hrsp⟩ => {
    subkeysDerived := hcipher
    countExact := fun q hq => (hsound q hq).count_toNat
    roundsBounded := fun q hq => (hsound q hq).nrounds_le
    roundsRecorded := fun q hq => (hsound q hq).recorded_iff
    countsDescend := fun q hq => (hsound q hq).descend
    countIsLastRecorded := fun q hq => (hsound q hq).last
    refusalsCarryNoData := hrsp }

/-- The invariants ask nothing of an element that has no value (10_state.md R11, R12). -/
theorem inv_of_cleared {s : State} (hcipher : s.cipher = none) (hsearch : s.search = none) (hrsp : s.rsp = none) :
    Inv s :=
  inv_iff.2 ⟨fun _ hc => by simp [hcipher] at hc, fun _ hq => by simp [hsearch] at hq,
    fun _ hr => by simp [hrsp] at hr⟩

/-- SINIT leaves a sound search state (44_key_search.md R79). -/
theorem sound_freshSearch : freshSearch.Sound where
  count_toNat := candCount_allCandidates.symm
  nrounds_le := Nat.zero_le _
  recorded_iff i := by simp
  descend i j m n _ hm := by simp at hm
  last := ⟨fun _ => rfl, fun h => absurd h (lt_irrefl 0)⟩

/-- Where COUNT is exact a round does not raise it: it adds no candidate (44_key_search.md section 3). -/
theorem searchRound_count_le {q : Search} (hexact : q.count.toNat = candCount q.cand) (pt ct : Block) :
    (searchRound pt ct q).count.toNat ≤ q.count.toNat := by
  rw [searchRound_count_toNat, ← searchRound_cand, hexact]
  exact candCount_mono fun _ => getLsbD_of_getLsbD_searchRound

section
variable {q : Search}

theorem Search.Sound.lt_nrounds (h : q.Sound) {i : Nat} {n : Count} (hn : rcntAt q i = some n) :
    i < q.nrounds.toNat :=
  (h.recorded_iff i).1 (hn ▸ rfl)

/-- COUNT, the last count recorded, is at most every recorded count (10_state.md R15). -/
theorem Search.Sound.count_le (h : q.Sound) {i : Nat} {n : Count} (hn : rcntAt q i = some n) :
    q.count.toNat ≤ n.toNat := by
  have hi := h.lt_nrounds hn
  obtain ⟨-, hlast⟩ := h.last
  exact (h.descend i (q.nrounds.toNat - 1) n q.count (by omega) hn (hlast (by omega))).1

variable (h : q.Sound) (pt ct : Block)
include h

/-- A round that there is room for keeps the search state sound: it records its count, which is at most the counts
recorded before, in the entry NROUNDS, and no other entry (44_key_search.md R80). -/
theorem Search.Sound.searchRound (hroom : q.nrounds.toNat < Config.rcntDepth) : (searchRound pt ct q).Sound := by
  have hnrounds := searchRound_nrounds_toNat pt ct hroom
  have hentry := rcntAt_searchRound pt ct hroom
  have hle := searchRound_count_le h.count_toNat pt ct
  constructor
  case count_toNat => exact searchRound_count_toNat pt ct q
  case nrounds_le => omega
  case recorded_iff =>
    intro i
    rw [hentry, hnrounds]
    split_ifs with hi
    · simp [hi]
    · rw [h.recorded_iff]
      omega
  case descend =>
    intro i j m n hij hm hn
    rw [hentry] at hm hn
    split_ifs at hm hn with hi hj hj
    · cases hm
      cases hn
      exact ⟨le_rfl, (searchRound_count_toNat pt ct q).trans_le (candCount_le _)⟩
    · have := h.lt_nrounds hn
      omega
    · cases hn
      exact ⟨hle.trans (h.count_le hm), (h.descend i i m m le_rfl hm hm).2⟩
    · exact h.descend i j m n hij hm hn
  case last =>
    refine ⟨fun hzero => ?_, fun _ => ?_⟩
    · rw [hzero] at hnrounds
      cases hnrounds
    · rw [hentry, if_pos (by omega)]

end

section
variable {s t : State}

/-- A command keeps the search state sound: SINIT starts it anew, and SPAIR performs a round only where NROUNDS is
below RCNT_DEPTH (44_key_search.md R79, R80). -/
theorem exec_keeps_sound {i : Instr} (h : exec i s = .next t) (hsound : ∀ q, s.search = some q → q.Sound) :
    ∀ q, t.search = some q → q.Sound := by
  intro q' hq'
  obtain hsearch | ⟨-, hsearch⟩ | ⟨pt, ct, q, -, hq, hne, hsearch⟩ := exec_search h
  · exact hsound q' (hsearch.symm.trans hq')
  · obtain rfl := Option.some.inj (hsearch.symm.trans hq')
    exact sound_freshSearch
  · cases hsearch.symm.trans hq'
    exact (hsound q hq).searchRound pt ct (lt_of_le_of_ne (hsound q hq).nrounds_le hne)

/-- LDKEY is the only command that writes the subkeys, and writes those of its key (10_state.md R10). -/
theorem exec_keeps_subkeysDerived {i : Instr} (h : exec i s = .next t) (hderived : SubkeysDerived s) :
    SubkeysDerived t := by
  intro c hc
  obtain ⟨hcipher, -⟩ | ⟨key, -, hcipher, -⟩ | ⟨-, hcipher, -⟩ | ⟨_, _, _, -, -, hcipher, -⟩ := exec_writes h
  · exact hderived c (hcipher.symm.trans hc)
  · cases hcipher.symm.trans hc
    exact ⟨key, rfl⟩
  · exact hderived c (hcipher.symm.trans hc)
  · exact hderived c (hcipher.symm.trans hc)

/-- Whatever the state, a command answered with a status other than OK answers no data (60_exceptions.md R89). -/
theorem exec_refusalsCarryNoData {i : Instr} (h : exec i s = .next t) : RefusalsCarryNoData t :=
  fun _ hrsp hst => (exec_eq_refuse_of_status_ne_ok h hrsp hst).2

theorem exec_keeps_inv {i : Instr} (h : exec i s = .next t) (hinv : Inv s) : Inv t := by
  obtain ⟨hderived, hsound, -⟩ := inv_iff.1 hinv
  exact inv_iff.2 ⟨exec_keeps_subkeysDerived h hderived, exec_keeps_sound h hsound, exec_refusalsCarryNoData h⟩

/-- A step keeps the invariants: its command keeps them, and without a command it clears the state or leaves it. -/
theorem step_keeps_inv (h : step s = .next t) (hinv : Inv s) : Inv t := by
  obtain ⟨hderived, hsound, -⟩ := inv_iff.1 hinv
  obtain ⟨-, hrun⟩ | ⟨w, rest, -, hrun⟩ | ⟨p, rest, -, hrun⟩ | ⟨w, rest, i, -, -, hrun⟩ | ⟨w, rest, e, -, -, hrun⟩ :=
    step_cases s
  · cases hrun.symm.trans h
    exact inv_iff.2 ⟨hderived, hsound, nofun⟩
  · cases hrun.symm.trans h
    exact inv_iff.2 ⟨hderived, hsound, nofun⟩
  · cases hrun.symm.trans h
    exact inv_of_cleared rfl rfl rfl
  · exact exec_keeps_inv (hrun.symm.trans h) (inv_iff.2 ⟨hderived, hsound, hinv.refusalsCarryNoData⟩)
  · cases hrun.symm.trans h
    refine inv_iff.2 ⟨hderived, hsound, fun r hrsp _ => ?_⟩
    cases hrsp
    rfl

end

end Sys2Proof.Machine
end

section
/-! The statements of the invariants and of 70_reset_and_hazards.md. -/

namespace Sys2Proof.Proofs

open Sys2Proof.Machine

/-- Settles O9: only a reset is no command and no idle step, and a command only sets KEYV and SACT. -/
theorem resetClearsAndAloneClears : Obligations.ResetClearsAndAloneClears := by
  unfold Obligations.ResetClearsAndAloneClears
  refine ⟨fun _ _ _ hin => step_of_rst hin, fun _ _ _ hin => step_of_ignored hin, fun s t hstep hcleared => ?_⟩
  obtain hreset | ⟨hkeyv, hsact⟩ := step_is_reset_or_keeps_keyv_sact hstep
  · exact hreset
  · obtain ⟨hset, hclear⟩ | ⟨hset, hclear⟩ := hcleared
    · cases (hkeyv hset).symm.trans hclear
    · cases (hsact hset).symm.trans hclear

/-- Settles O11, by induction on the number of steps. -/
theorem noRunStops : Obligations.NoRunStops := by
  unfold Obligations.NoRunStops
  exact run_next

/-- Settles O43: a command is answered whatever it is, and a step by its transaction. -/
theorem everyCommandAnswered : Obligations.EveryCommandAnswered := by
  unfold Obligations.EveryCommandAnswered
  exact ⟨exec_answered_inputs, step_answers_cmd_alone⟩

/-- Settles O52: at reset no element the invariants speak of has a value. -/
theorem invariantsAtReset : Obligations.InvariantsAtReset := by
  unfold Obligations.InvariantsAtReset
  exact inv_of_cleared rfl rfl rfl

/-- Settles O53: the subkeys, the search state and the response each keep their own invariants. -/
theorem stepKeepsInvariants : Obligations.StepKeepsInvariants := by
  unfold Obligations.StepKeepsInvariants
  exact fun _ _ hinv hstep => step_keeps_inv hstep hinv

end Sys2Proof.Proofs
end

section
/-! Laws of the permutation tables: all positions of a permuted sequence at once, and that a table which reads every
position of its input loses nothing (40_bit_utilities.md R42, R44 to R49). -/

namespace Sys2Proof.Machine

/-- The positions of a permuted sequence, in order, are the ones its table lists (40_bit_utilities.md R42). -/
theorem map_pos_permute {m n : Nat} (T : PermTable m n) (s : BitVec m) :
    (List.range' 1 n).map (pos (permute T s)) = T.entries.map (pos s) := by
  refine List.ext_getElem (by simp [T.length_eq]) fun i hi _ => ?_
  have hin : i < n := by simpa using hi
  rw [List.getElem_map, List.getElem_map, List.getElem_range', pos_permute T s (by omega) (by omega), PermTable.entry,
    List.getD_eq_getElem _ _ (by rw [T.length_eq]; omega)]
  simp

/-- A table that lists every position of its input permutes injectively. -/
theorem permute_injective {m n : Nat} {T : PermTable m n} (h : ∀ i ∈ List.range' 1 m, i ∈ T.entries) :
    Function.Injective (permute T) := by
  intro a b hab
  have hpos : ∀ e ∈ T.entries, pos a e = pos b e := by
    rw [← List.map_inj_left, ← map_pos_permute, ← map_pos_permute, hab]
  exact eq_of_pos fun i h1 hm => hpos i (h i (List.mem_range'_1.2 ⟨h1, by omega⟩))

/-- A table that permutes the positions of its input permutes bijectively. -/
theorem permute_bijective {n : Nat} {T : PermTable n n} (h : ∀ i ∈ List.range' 1 n, i ∈ T.entries) :
    Function.Bijective (permute T) :=
  Finite.injective_iff_bijective.1 (permute_injective h)

/-- P8 reads neither position 1 nor position 2 (40_bit_utilities.md R45). -/
theorem permute_p8_not_injective : ¬ Function.Injective (permute p8) := by
  intro h
  have heq : permute p8 0b1000000000#10 = permute p8 0#10 := by decide
  exact absurd (h heq) (by decide)

end Sys2Proof.Machine
end

section
/-! Laws of the subkeys in closed form: each subkey bit is one key bit (41_key_schedule.md section 1). -/

namespace Sys2Proof.Machine

theorem keyLeft_append_keyRight (k : Key) : keyLeft k ++ keyRight k = k :=
  (BitVec.extractLsb'_append_extractLsb'_eq_extractLsb' rfl).trans BitVec.extractLsb'_eq_self

/-- `k{1..5}{i} = k{i}` (40_bit_utilities.md R51). -/
theorem pos_keyLeft {i : Nat} (k : Key) (h5 : i ≤ 5) : pos (keyLeft k) i = pos k i := by
  have h := pos_append_left (keyLeft k) (keyRight k) h5
  rw [keyLeft_append_keyRight] at h
  exact h.symm

/-- `k{6..10}{i} = k{i+5}` (40_bit_utilities.md R51). -/
theorem pos_keyRight {i : Nat} (k : Key) (h1 : 1 ≤ i) (h5 : i ≤ 5) : pos (keyRight k) i = pos k (i + 5) := by
  have h := pos_append_right (keyLeft k) (keyRight k) (i := i + 5) (by omega) (by omega)
  rw [keyLeft_append_keyRight, Nat.add_sub_cancel] at h
  exact h.symm

/-- The key positions of subkey1, in order (41_key_schedule.md section 1). -/
def subkey1Positions : List Nat := [1, 7, 9, 4, 8, 3, 10, 6]

/-- The key positions of subkey2, in order (41_key_schedule.md section 1). -/
def subkey2Positions : List Nat := [8, 3, 6, 5, 10, 2, 9, 1]

theorem map_pos_subkey1 (key : Key) :
    (List.range' 1 8).map (pos (deriveSubkeys key).1) = subkey1Positions.map (pos key) := by
  rw [deriveSubkeys, map_pos_permute]
  simp (disch := omega) only [p8, List.map_cons, List.map_nil, pos_append_left, pos_append_right, pos_rotateLeft,
    pos_keyLeft, pos_keyRight, pos_permute]
  rfl

theorem map_pos_subkey2 (key : Key) :
    (List.range' 1 8).map (pos (deriveSubkeys key).2) = subkey2Positions.map (pos key) := by
  rw [deriveSubkeys, map_pos_permute]
  simp (disch := omega) only [p8, List.map_cons, List.map_nil, pos_append_left, pos_append_right, pos_rotateLeft,
    pos_keyLeft, pos_keyRight, pos_permute]
  rfl

/-- The two subkeys together hold every bit of the key (41_key_schedule.md section 2). -/
theorem deriveSubkeys_injective : Function.Injective deriveSubkeys := by
  intro a b hab
  have h1 : ∀ i ∈ subkey1Positions, pos a i = pos b i := by
    rw [← List.map_inj_left, ← map_pos_subkey1, ← map_pos_subkey1, hab]
  have h2 : ∀ i ∈ subkey2Positions, pos a i = pos b i := by
    rw [← List.map_inj_left, ← map_pos_subkey2, ← map_pos_subkey2, hab]
  have hcover : ∀ i ∈ List.range' 1 10, i ∈ subkey1Positions ∨ i ∈ subkey2Positions := by decide
  exact eq_of_pos fun i hlow hhigh =>
    (hcover i (List.mem_range'_1.2 ⟨hlow, by omega⟩)).elim (h1 i) (h2 i)

/-- A sequence is its positions in order. -/
theorem map_pos_inj {n : Nat} {a b : BitVec n} :
    (List.range' 1 n).map (pos a) = (List.range' 1 n).map (pos b) ↔ a = b where
  mp h := eq_of_pos fun i h1 hn => List.map_inj_left.1 h i (List.mem_range'_1.2 ⟨h1, by omega⟩)
  mpr h := by rw [h]

/-- The subkeys are equal exactly when the key has equal bits where they take them (41_key_schedule.md section 1). -/
theorem subkeys_eq_iff (key : Key) :
    (deriveSubkeys key).1 = (deriveSubkeys key).2 ↔ subkey1Positions.map (pos key) = subkey2Positions.map (pos key) := by
  rw [← map_pos_inj, map_pos_subkey1, map_pos_subkey2]

/-- The keys that agree at positions 1, 6, 8, 9, 10, at 2, 3, 7, and at 4, 5 (95_test_vectors.md section 2.5). -/
theorem positions_agree_iff : ∀ key : Key, subkey1Positions.map (pos key) = subkey2Positions.map (pos key) ↔
    key ∈ ([0b0000000000, 0b0001100000, 0b0110001000, 0b0111101000,
            0b1000010111, 0b1001110111, 0b1110011111, 0b1111111111] : List Key) := by
  decide +kernel

end Sys2Proof.Machine
end

section
/-! The statements of the tables and of the subkeys. -/

namespace Sys2Proof.Proofs

open Sys2Proof.Machine

/-- Settles O14: the positions of a permuted sequence are those its table lists. -/
theorem tableWiring : Obligations.TableWiring := by
  unfold Obligations.TableWiring
  exact ⟨map_pos_permute p10, map_pos_permute p8, map_pos_permute ip, map_pos_permute ipInv, map_pos_permute ep,
    map_pos_permute p4, by decide⟩

/-- Settles O15: each table but P8 reads every position of its input. -/
theorem tableProperties : Obligations.TableProperties := by
  unfold Obligations.TableProperties
  exact ⟨fun x => ⟨permute_ipInv_permute_ip x, permute_ip_permute_ipInv x⟩, permute_bijective (by decide),
    permute_bijective (by decide), permute_bijective (by decide), permute_bijective (by decide),
    permute_injective (by decide), permute_p8_not_injective⟩

/-- Settles O17: the two permutations and the rotations of the halves, composed position by position. -/
theorem subkeysClosedForm : Obligations.SubkeysClosedForm := by
  unfold Obligations.SubkeysClosedForm
  exact fun key => ⟨map_pos_subkey1 key, map_pos_subkey2 key⟩

/-- Settles O18: every key position is one of a subkey. -/
theorem subkeysInjective : Obligations.SubkeysInjective := by
  unfold Obligations.SubkeysInjective
  exact deriveSubkeys_injective

/-- Settles O24: with one subkey the exchange changes nothing, and the closed form says which keys give one subkey. -/
theorem equalSubkeys : Obligations.EqualSubkeys := by
  unfold Obligations.EqualSubkeys
  exact ⟨fun k x => ⟨rfl, encrypt_exchanged_encrypt k k x⟩,
    fun key => (subkeys_eq_iff key).trans (positions_agree_iff key)⟩

end Sys2Proof.Proofs
end

section
/-! Laws of the search over several pairs: the set all pairs leave, and when `recoverFrom` ends with it although it may
stop early (44_key_search.md R77, section 3). -/

namespace Sys2Proof.Machine

/-- The candidates that every pair of a list keeps, no pair left out (44_key_search.md section 3). -/
def filterAll (cand : CandMap) : List KnownPair → CandMap
  | [] => cand
  | (pt, ct) :: rest => filterAll (filterCandidates cand pt ct) rest

/-- A candidate is kept by every pair exactly when its key satisfies every pair, whatever the order. -/
theorem getLsbD_filterAll (pairs : List KnownPair) (cand : CandMap) {k : Nat} (hk : k < 1024) :
    (filterAll cand pairs).getLsbD k = true ↔
      cand.getLsbD k = true ∧ ∀ p ∈ pairs, encryptWith (seq 10 k) p.1 = p.2 := by
  induction pairs generalizing cand with
  | nil => simp [filterAll]
  | cons p rest ih =>
    rw [filterAll, ih, getLsbD_filterCandidates, decide_eq_true hk, Bool.true_and, Bool.and_eq_true,
      oracle_iff_encryptWith, List.forall_mem_cons, and_assoc]

/-- Pairs that every candidate satisfies filter nothing out. -/
theorem filterAll_eq_self {pairs : List KnownPair} {cand : CandMap}
    (h : ∀ k, k < 1024 → cand.getLsbD k = true → ∀ p ∈ pairs, encryptWith (seq 10 k) p.1 = p.2) :
    filterAll cand pairs = cand := by
  refine BitVec.eq_of_getLsbD_eq fun k hk => Bool.eq_iff_iff.2 ?_
  rw [getLsbD_filterAll pairs cand hk]
  exact and_iff_left_of_imp (h k hk)

/-- Where every pair is a round, no pair is left out (44_key_search.md R77). -/
theorem recoverFrom_of_all_consumed {pairs : List KnownPair} {cand : CandMap}
    (h : (recoverFrom cand pairs).2.length = pairs.length) : (recoverFrom cand pairs).1 = filterAll cand pairs := by
  induction pairs generalizing cand with
  | nil => rfl
  | cons p rest ih =>
    by_cases hone : candCount (filterCandidates cand p.1 p.2) = 1
    · rw [recoverFrom_cons_of_one hone] at h ⊢
      obtain rfl : rest = [] := List.length_eq_zero_iff.1 (Nat.succ.inj h).symm
      rfl
    · rw [recoverFrom_cons_of_ne_one hone] at h ⊢
      exact ih (Nat.succ.inj h)

/-- Where a candidate satisfies every pair, the pairs left out by the early exit would filter nothing out: that
candidate is then the only one (44_key_search.md R82). -/
theorem recoverFrom_of_consistent {key : Nat} {pairs : List KnownPair} {cand : CandMap} (hkey : cand.getLsbD key = true)
    (h : ∀ p ∈ pairs, encryptWith (seq 10 key) p.1 = p.2) : (recoverFrom cand pairs).1 = filterAll cand pairs := by
  induction pairs generalizing cand with
  | nil => rfl
  | cons p rest ih =>
    obtain ⟨hp, hrest⟩ := List.forall_mem_cons.1 h
    have hkept : (filterCandidates cand p.1 p.2).getLsbD key = true := by
      rw [getLsbD_filterCandidates, decide_eq_true (BitVec.lt_of_getLsbD hkey), hkey, oracle_iff_encryptWith.2 hp]
      rfl
    by_cases hone : candCount (filterCandidates cand p.1 p.2) = 1
    · rw [recoverFrom_cons_of_one hone, filterAll, filterAll_eq_self fun k _ hk => ?_]
      rwa [candidate_unique hone hk hkept]
    · rw [recoverFrom_cons_of_ne_one hone]
      exact ih hkept hrest

/-- The sequence of a key's value is the key (00_scope.md R6). -/
theorem seq_val (key : Key) : seq 10 (val key) = key := by
  rw [seq, val, BitVec.ofNat_toNat, BitVec.setWidth_eq]

/-- The search over pairs consistent with one key ends with the keys that satisfy every pair (44_key_search.md section
3). -/
theorem recoverKey_of_consistent {key : Key} {pairs : List KnownPair} (h : ∀ p ∈ pairs, encryptWith key p.1 = p.2) :
    (recoverKey pairs).1 = filterAll allCandidates pairs := by
  refine recoverFrom_of_consistent (key := val key) ?_ (by rwa [seq_val])
  rw [getLsbD_allCandidates, decide_eq_true key.isLt]

theorem getLsbD_filterAll_allCandidates (pairs : List KnownPair) {k : Nat} (hk : k < 1024) :
    (filterAll allCandidates pairs).getLsbD k = true ↔ ∀ p ∈ pairs, encryptWith (seq 10 k) p.1 = p.2 := by
  rw [getLsbD_filterAll pairs _ hk, getLsbD_allCandidates, decide_eq_true hk, eq_self, true_and]

/-- The set all pairs leave does not depend on their order. -/
theorem filterAll_perm {pairs pairs' : List KnownPair} (h : pairs.Perm pairs') :
    filterAll allCandidates pairs = filterAll allCandidates pairs' := by
  refine BitVec.eq_of_getLsbD_eq fun k hk => Bool.eq_iff_iff.2 ?_
  simp only [getLsbD_filterAll_allCandidates _ hk, h.mem_iff]

/-- A number and its remainder have one sequence of 10 bits (log 17). -/
theorem seq_mod (k : Nat) : seq 10 (k % 1024) = seq 10 k :=
  BitVec.eq_of_toNat_eq (by simp)

end Sys2Proof.Machine
end

section
/-! The remaining statements of 44_key_search.md. -/

namespace Sys2Proof.Proofs

open Sys2Proof.Machine

/-- Settles O33: of the commands other than SINIT only SPAIR writes the search state, and a round only filters. -/
theorem candidatesNeverGrow : Obligations.CandidatesNeverGrow := by
  unfold Obligations.CandidatesNeverGrow
  intro i s t q q' hexact hrun hsinit hq hq'
  obtain hsearch | ⟨hi, -⟩ | ⟨pt, ct, q₀, -, hq₀, -, hsearch⟩ := exec_search hrun
  · obtain rfl := Option.some.inj (hq'.symm.trans (hsearch.trans hq))
    exact ⟨fun _ hk => hk, le_rfl⟩
  · exact absurd hi (hsinit _)
  · obtain rfl := Option.some.inj (hq.symm.trans hq₀)
    obtain rfl := Option.some.inj (hq'.symm.trans hsearch)
    exact ⟨fun _ => getLsbD_of_getLsbD_searchRound, searchRound_count_le (hexact q hq) pt ct⟩

/-- Settles O35: the search ends with the keys that satisfy every pair, and that set has no order. -/
theorem consistentPairsInAnyOrder : Obligations.ConsistentPairsInAnyOrder := by
  unfold Obligations.ConsistentPairsInAnyOrder
  refine ⟨fun pairs hlen k hk => ?_, fun key pairs pairs' hperm hkey => ⟨?_, ?_⟩⟩
  · rw [recoverKey, recoverFrom_of_all_consumed hlen, getLsbD_filterAll_allCandidates pairs hk]
  · rw [recoverKey_of_consistent hkey, getLsbD_filterAll_allCandidates pairs key.isLt, seq_val]
    exact hkey
  · rw [recoverKey_of_consistent hkey, recoverKey_of_consistent fun p hp => hkey p (hperm.mem_iff.2 hp),
      filterAll_perm hperm]

/-- Settles O54: the oracle looks at the key's sequence, which is that of the remainder. -/
theorem oracleOutsideCandidates : Obligations.OracleOutsideCandidates := by
  unfold Obligations.OracleOutsideCandidates
  intro k pt ct
  rw [oracle, oracle, seq_mod]

end Sys2Proof.Proofs
end

section
/-! Laws of what a read keeps when only one half of the state is written, and of the command families' frames
(10_state.md section 3, 20_memory.md R23). -/

namespace Sys2Proof.Machine

/-- A mapped address is the address of its word (20_memory.md R23). -/
theorem wordAddr_of_wordName {a : Addr} {name : WordName} (h : wordName a = some name) : wordAddr name = a := by
  revert h
  fun_cases wordName a
  case case1 h | case2 h | case3 h | case4 h | case5 h =>
    rintro ⟨⟩
    exact BitVec.eq_of_toNat_eq (Eq.symm h)
  case case6 | case7 =>
    rintro ⟨⟩
    refine BitVec.eq_of_toNat_eq ?_
    rw [wordAddr, BitVec.toNat_ofNat]
    dsimp only
    omega
  case case8 => nofun

section
variable {s t : State}

/-- A read of STATUS or KEYS apart, a read depends on the search state alone. -/
theorem memRead_congr_search (hsearch : t.search = s.search) {a : Addr} (hstatus : a ≠ 0x00#8) (hkeys : a ≠ 0x01#8) :
    memRead t a = memRead s a := by
  cases hname : wordName a with
  | none => rw [memRead_of_unmapped hname, memRead_of_unmapped hname]
  | some name =>
    have haddr := wordAddr_of_wordName hname
    rw [memRead_of_wordName hname, memRead_of_wordName hname]
    cases name with
    | status => exact absurd haddr.symm hstatus
    | keys => exact absurd haddr.symm hkeys
    | count | nrounds | skey | rcnt _ | candw _ => simp only [readWord, readSearch, hsearch]

/-- Every STATUS bit but KEYV depends on the search state alone (10_state.md R17). -/
theorem statusWord_getLsbD_congr_search (hsearch : t.search = s.search) {b : Nat} (hb : b ≠ 0) :
    (statusWord t).getLsbD b = (statusWord s).getLsbD b := by
  obtain hb4 | hb4 := Nat.lt_or_ge b 4
  · have hfield (u : State) :
        (statusWord u).getLsbD b = (outcomeField u.search ++ BitVec.ofBool u.sact).getLsbD (b - 1) := by
      rw [← statusWord_outcome_sact, BitVec.getLsbD_extractLsb', decide_eq_true (by omega), Bool.true_and,
        Nat.add_sub_cancel' (by omega)]
    rw [hfield, hfield, State.sact, State.sact, hsearch]
  · rw [statusWord_getLsbD_reserved t hb4, statusWord_getLsbD_reserved s hb4]

/-- STATUS.KEYV and the reserved bits depend on the cipher instance alone (10_state.md R17). -/
theorem statusWord_getLsbD_congr_cipher (hcipher : t.cipher = s.cipher) {b : Nat} (hb : b = 0 ∨ 4 ≤ b) :
    (statusWord t).getLsbD b = (statusWord s).getLsbD b := by
  obtain rfl | hb := hb
  · rw [statusWord_getLsbD_keyv, statusWord_getLsbD_keyv, State.keyv, State.keyv, hcipher]
  · rw [statusWord_getLsbD_reserved t hb, statusWord_getLsbD_reserved s hb]

/-- The KEYS word depends on the cipher instance alone (20_memory.md R23). -/
theorem memRead_keys_congr_cipher (hcipher : t.cipher = s.cipher) : memRead t 0x01#8 = memRead s 0x01#8 := by
  rw [memRead_of_wordName wordName_keys, memRead_of_wordName wordName_keys, readWord, readWord, readKeys, readKeys,
    hcipher]

/-- An RCNT entry recorded before a round reads as before it (10_state.md R15). -/
theorem readRcnt_searchRound {q : Search} (hroom : q.nrounds.toNat < Config.rcntDepth) (pt ct : Block) {i : Nat}
    (hi : i < q.nrounds.toNat) : readRcnt (searchRound pt ct q) i = readRcnt q i := by
  rw [readRcnt, readRcnt, searchRound_nrounds_toNat pt ct hroom, rcntAt_searchRound pt ct hroom, if_neg hi.ne,
    if_neg (by omega), if_neg (by omega)]

theorem memRead_rcnt {q : Search} (hq : s.search = some q) {i : Nat} (hi : i < 64) :
    memRead s (BitVec.ofNat 8 (0x40 + i)) = readRcnt q i :=
  (memRead_wordAddr s (.rcnt ⟨i, hi⟩)).trans (readSearch_some hq _)

end

section
variable {i : Instr} {s t : State}

/-- ENC, DEC and RD write neither half of the state. -/
theorem exec_frame_of_enc_dec_rd (hi : (∃ rsv b, i = .enc rsv b) ∨ (∃ rsv b, i = .dec rsv b) ∨ (∃ rsv a, i = .rd rsv a))
    (h : exec i s = .next t) : t.cipher = s.cipher ∧ t.search = s.search := by
  obtain hframe | ⟨_, rfl, -⟩ | ⟨rfl, -⟩ | ⟨_, _, _, rfl, -⟩ := exec_writes h
  · exact hframe
  all_goals simp at hi

/-- LDKEY does not write the search state (10_state.md R20). -/
theorem exec_ldkey_search {rsv : BitVec 6} {key : Key} (h : exec (.ldkey rsv key) s = .next t) :
    t.search = s.search :=
  (fields_of_sameEffect_cipherWrite (h ▸ sameEffect_ldkey rsv key s s) rfl).1

/-- SINIT and SPAIR do not write the cipher instance (10_state.md R20). -/
theorem exec_cipher_of_sinit_spair (hi : (∃ rsv, i = .sinit rsv) ∨ (∃ pt ct, i = .spair pt ct))
    (h : exec i s = .next t) : t.cipher = s.cipher := by
  obtain ⟨hcipher, -⟩ | ⟨_, rfl, -⟩ | ⟨-, hcipher, -⟩ | ⟨_, _, _, -, -, hcipher, -⟩ := exec_writes h
  · exact hcipher
  · simp at hi
  · exact hcipher
  · exact hcipher

/-- SPAIR leaves the search as it was, or after a round there was room for (44_key_search.md R80). -/
theorem exec_spair_search {pt ct : Block} {q : Search} (hq : s.search = some q)
    (h : exec (.spair pt ct) s = .next t) :
    t.search = some q ∨ q.nrounds.toNat ≠ Config.rcntDepth ∧ t.search = some (searchRound pt ct q) := by
  obtain hsearch | ⟨⟨⟩, -⟩ | ⟨_, _, q₀, ⟨⟩, hq₀, hne, hsearch⟩ := exec_search h
  · exact .inl (hsearch.trans hq)
  · obtain rfl := Option.some.inj (hq.symm.trans hq₀)
    exact .inr ⟨hne, hsearch⟩

end

section
variable {W : (State → State) → Prop} {s s' : State} {r r' : Result}

theorem SameEffect.symm (h : SameEffect W s s' r r') : SameEffect W s' s r' r := by
  obtain ⟨st, d, write, hwrite, hr, hr'⟩ := h
  exact ⟨st, d, write, hwrite, hr', hr⟩

end

/-- A command has one effect, a cipher write or a search write, on all states of the same cipher instance and search
state (00_scope.md R8). -/
theorem sameEffect_exec (i : Instr) {s s' : State} (hcipher : s.cipher = s'.cipher) (hsearch : s.search = s'.search) :
    SameEffect CipherWrite s s' (exec i s) (exec i s') ∨ SameEffect SearchWrite s s' (exec i s) (exec i s') := by
  cases i with
  | ldkey rsv key => exact .inl (sameEffect_ldkey rsv key s s')
  | enc rsv block => exact .inl (sameEffect_enc rsv block hcipher)
  | dec rsv block => exact .inl (sameEffect_dec rsv block hcipher)
  | sinit rsv => exact .inr (sameEffect_sinit rsv s s')
  | spair pt ct => exact .inr (sameEffect_spair pt ct hsearch)
  | rd rsv a => exact .inl (sameEffect_rd .nothing rsv a hcipher hsearch)

end Sys2Proof.Machine
end

section
/-! The remaining statements of 20_memory.md, the frames of the commands, and determinism (00_scope.md section 4). -/

namespace Sys2Proof.Proofs

open Sys2Proof.Machine

/-- Settles O40: the word of the candidate's address, and the bit in it. -/
theorem candidateBitOfKey : Obligations.CandidateBitOfKey := by
  unfold Obligations.CandidateBitOfKey
  refine ⟨fun s q k hq hk => ⟨candWord q.cand (k / 16), ?_, ?_⟩, by decide, by decide⟩
  · exact (memRead_wordAddr s (.candw ⟨k / 16, by omega⟩)).trans (readSearch_some hq _)
  · rw [getLsbD_candWord q.cand _ (Nat.mod_lt k (by decide)), Nat.div_add_mod]

/-- Settles O41: name to address and back, in both orders, and the ranges in between. -/
theorem addressMapOneToOne : Obligations.AddressMapOneToOne := by
  unfold Obligations.AddressMapOneToOne
  exact ⟨wordName_wordAddr, fun _ _ => wordAddr_of_wordName, fun _ => wordName_eq_none_iff⟩

/-- Settles O46: a read depends on the two halves of the state, which these commands do not write. -/
theorem frameOfEncDecRd : Obligations.FrameOfEncDecRd := by
  unfold Obligations.FrameOfEncDecRd
  intro i s t hi hrun
  obtain ⟨hcipher, hsearch⟩ := exec_frame_of_enc_dec_rd hi hrun
  exact ⟨hcipher, hsearch, exec_inputs hrun, fun a => memRead_congr hcipher hsearch a⟩

/-- Settles O47: what depends on the search state alone is as before, since LDKEY does not write it. -/
theorem frameOfLdkey : Obligations.FrameOfLdkey := by
  unfold Obligations.FrameOfLdkey
  intro rsv key s t hrun
  have hsearch := exec_ldkey_search hrun
  exact ⟨hsearch, exec_inputs hrun, fun _ hb => statusWord_getLsbD_congr_search hsearch hb,
    fun _ hstatus hkeys => memRead_congr_search hsearch hstatus hkeys⟩

/-- Settles O48: what depends on the cipher instance alone is as before, and a round records one RCNT entry. -/
theorem frameOfSinitSpair : Obligations.FrameOfSinitSpair := by
  unfold Obligations.FrameOfSinitSpair
  constructor
  · intro i s t hi hrun
    have hcipher := exec_cipher_of_sinit_spair hi hrun
    exact ⟨hcipher, exec_inputs hrun, fun _ hb => statusWord_getLsbD_congr_cipher hcipher hb,
      memRead_keys_congr_cipher hcipher,
      fun _ ha => (memRead_of_unmapped ha t).trans (memRead_of_unmapped ha s).symm⟩
  · intro pt ct s t q hrun hq
    have hwindow (hbounded : Safety.RoundsBounded s) {i : Nat} (hi : i < q.nrounds.toNat) : i < 64 :=
      hi.trans_le ((hbounded q hq).trans Config.rcntDepth_le)
    obtain ht | ⟨hne, ht⟩ := exec_spair_search hq hrun
    · refine ⟨q, ht, fun _ _ => rfl, fun hbounded i hi => ?_⟩
      rw [memRead_rcnt ht (hwindow hbounded hi), memRead_rcnt hq (hwindow hbounded hi)]
    · refine ⟨searchRound pt ct q, ht, fun i hi => rcntAt_recordRound_of_ne _ q hi, fun hbounded i hi => ?_⟩
      have hroom := lt_of_le_of_ne (hbounded q hq) hne
      rw [memRead_rcnt ht (hwindow hbounded hi), memRead_rcnt hq (hwindow hbounded hi),
        readRcnt_searchRound hroom pt ct hi]

/-- Settles O51: the one effect is taken on two states of the same halves. -/
theorem outcomeDependsOnStateAlone : Obligations.OutcomeDependsOnStateAlone := by
  unfold Obligations.OutcomeDependsOnStateAlone
  intro i s s' t t' hcipher hsearch ht ht'
  have heffect := sameEffect_exec i hcipher hsearch
  rw [ht, ht'] at heffect
  obtain heffect | heffect := heffect
  · obtain ⟨hkept, hcipher', hrsp⟩ := fields_of_sameEffect_cipherWrite heffect hcipher
    obtain ⟨hkept', -⟩ := fields_of_sameEffect_cipherWrite heffect.symm hcipher.symm
    exact ⟨hcipher', by rw [hkept, hkept', hsearch], hrsp⟩
  · obtain ⟨hkept, hsearch', hrsp⟩ := fields_of_sameEffect_searchWrite heffect hsearch
    obtain ⟨hkept', -⟩ := fields_of_sameEffect_searchWrite heffect.symm hsearch.symm
    exact ⟨by rw [hkept, hkept', hcipher], hsearch', hrsp⟩

end Sys2Proof.Proofs
end
